-- ==== Sys2Proof/Word.lean ====
section
/-! DEFINITION. The widths of the spec's values (spec/00_scope.md R8 to R10) and the one enumerated
operand of a command word. -/

namespace Sys2Proof

/-- A byte, 8 bits (R8). -/
abbrev Byte := BitVec 8

/-- A nibble, 4 bits (R8). -/
abbrev Nibble := BitVec 4

/-- The CRC register's width, `CRC_WIDTH` (R7, R20). -/
abbrev CrcWord := BitVec 16

/-- A command word, format C, 12 bits (30_encoding.md R60). -/
abbrev CmdWord := BitVec 12

/-- A telemetry frame written as one word `F`, 40 bits, `byte[0]` in bits 39:32 (R9, R63). -/
abbrev FrameWord := BitVec 40

/-- A tempo value in microseconds per quarter note, 24 bits (R47, R64). -/
abbrev TempoWord := BitVec 24

/-- The cause of a read failure, as `FP_ABORT` carries it and `err_cause` shows it
(42_frame_parser.md R104, 60_exceptions.md R141). -/
inductive ErrCause where
  | timeout
  | ioError
  deriving DecidableEq, Repr

/-- The six raw fields of a telemetry frame (30_encoding.md R63). -/
structure Frame where
  marker : Byte
  flag : Nibble
  chan : Nibble
  b2 : Byte
  b3 : Byte
  b4 : Byte
  deriving DecidableEq, Repr

end Sys2Proof
end

