-- ==== Sys2Proof/Config.lean ====
section
/-! DEFINITION. The parameters the spec leaves OPEN (spec/00_scope.md R7), the fixed ones the model
uses by name, and the free values: what the environment presents and what `buf` holds after a reset
step. A free value has no body, so no proof can see what it is. -/

namespace Sys2Proof

/-- `ERR_POLICY` (R7, 42_frame_parser.md R104; 92_eei_decisions.md D13). -/
inductive ErrPolicy where
  | terminate
  | retry
  deriving DecidableEq, Repr

/-- The OPEN parameters of an instance, fixed for its life (R7, R12). `markerExpect` is
`MARKER_EXPECT`: `none`, or one byte value (D20). -/
structure Params where
  errPolicy : ErrPolicy := .terminate
  markerExpect : Option Byte := none
  deriving DecidableEq, Repr

/-- The parameters at the defaults R7 names: `TERMINATE` and `none`. -/
def Config.defaultParams : Params := { errPolicy := .terminate, markerExpect := none }

/-- `CRC_POLY` (R7). -/
def Config.crcPoly : CrcWord := 0x1021#16

/-- `CRC_INIT` (R7; spec/90_conflicts.md C1). -/
def Config.crcInit : CrcWord := 0x0000#16

/-- `BLOCK_PAYLOAD_LEN` in bytes (R7): a premise on the feeder (41_crc.md R92), never checked. -/
def Config.blockPayloadLen : Nat := 128

/-- DESIGN CHOICE, safe (log 1): the reset input the environment presents in step number `tick`
where no input is pending (R12: the environment's choice). -/
opaque Config.envRst : Nat → Bool

/-- DESIGN CHOICE, safe (log 1): the command word the environment presents in step number `tick`
where no input is pending (R12: the environment's choice). -/
opaque Config.envCmd : Nat → CmdWord

/-- DESIGN CHOICE, safe (log 3): what `buf[i]` holds after the reset step number `tick`
(10_state.md R33 "unspecified"; 92_eei_decisions.md D23). -/
opaque Config.resetByte : Nat → Fin 5 → Byte

end Sys2Proof
end

