-- ==== Sys2Proof/Syntax.lean ====
section
/-! DEFINITION. One constructor for each row of spec/opcode_table.json. An operand is exactly a
group of bits the row's encoding leaves open and the step can observe; the data bits that format C
ignores (30_encoding.md R62) are no operands. -/

namespace Sys2Proof

inductive Instr where
  /-- `IDLE`, `0000xxxxxxxx` (R80) -/
  | idle
  /-- `CRC_CLR`, `0001xxxxxxxx` (R88) -/
  | crcClr
  /-- `CRC_BIT d`, `0010xxxxxxxd` (R89) -/
  | crcBit (d : Bool)
  /-- `CRC_BYTE b`, `0011bbbbbbbb` (R90) -/
  | crcByte (b : Byte)
  /-- `CRC_RD`, `0100xxxxxxxx` (R91) -/
  | crcRd
  /-- reserved opcode 5, `0101xxxxxxxx` (R81) -/
  | reserved5
  /-- reserved opcodes 6 and 7, `011oxxxxxxxx` with `o` the opcode's low bit (R81) -/
  | reserved67 (o : BitVec 1)
  /-- `FP_START`, `1000xxxxxxxx` (R101) -/
  | fpStart
  /-- `FP_STOP`, `1001xxxxxxxx` (R102) -/
  | fpStop
  /-- `FP_BYTE b`, `1010bbbbbbbb` (R103) -/
  | fpByte (b : Byte)
  /-- `FP_ABORT cause`, `1011xxxxxxxc` (R104) -/
  | fpAbort (cause : ErrCause)
  /-- reserved opcodes C to F, `11ooxxxxxxxx` with `oo` the opcode's low bits (R81) -/
  | reservedCF (o : BitVec 2)
  /-- frame `F.KEY`, `mmmmmmmm0000ccccxxxxxxxxkkkkkkkkvvvvvvvv` (R118) -/
  | fKey (marker : Byte) (chan : Nibble) (b2 key velocity : Byte)
  /-- frame `F.TEMPO_ZERO`, `mmmmmmmm0001cccc000000000000000000000000` (R120) -/
  | fTempoZero (marker : Byte) (chan : Nibble)
  /-- frame `F.TEMPO`, `mmmmmmmm0001cccctttttttttttttttttttttttt`, the value not 0 (R119) -/
  | fTempo (marker : Byte) (chan : Nibble) (tempo : TempoWord)
  /-- frame `F.END`, `mmmmmmmm0010ccccxxxxxxxxxxxxxxxxxxxxxxxx` (R121) -/
  | fEnd (marker : Byte) (chan : Nibble) (b2 b3 b4 : Byte)
  /-- frame `F.NOP`, `mmmmmmmm0011ccccxxxxxxxxxxxxxxxxxxxxxxxx` (R122) -/
  | fNop (marker : Byte) (chan : Nibble) (b2 b3 b4 : Byte)
  /-- frame `F.PARAM`, `mmmmmmmm0100cccc0pppssssvvvvvvvvxxxxxxxx` (R123) -/
  | fParam (marker : Byte) (chan : Nibble) (paramId : BitVec 3) (slot : Nibble) (value b4 : Byte)
  /-- frame `F.PARAM_BAD_ID`, `mmmmmmmm0100cccc1xxxxxxxxxxxxxxxxxxxxxxx` (R124) -/
  | fParamBadId (marker : Byte) (chan : Nibble) (low : BitVec 7) (b3 b4 : Byte)
  /-- frame `F.SKIP`, `mmmmmmmm0101ccccxxxxxxxxxxxxxxxxxxxxxxxx` (R125) -/
  | fSkip (marker : Byte) (chan : Nibble) (b2 b3 b4 : Byte)
  /-- frame `F.UNKNOWN_6_7`, `mmmmmmmm011fccccxxxxxxxxxxxxxxxxxxxxxxxx` (R126) -/
  | fUnknown67 (marker : Byte) (f : BitVec 1) (chan : Nibble) (b2 b3 b4 : Byte)
  /-- frame `F.UNKNOWN_8_F`, `mmmmmmmm1fffccccxxxxxxxxxxxxxxxxxxxxxxxx` (R126) -/
  | fUnknown8F (marker : Byte) (f : BitVec 3) (chan : Nibble) (b2 b3 b4 : Byte)
  deriving DecidableEq, Repr

end Sys2Proof
end

