-- ==== Sys2Proof/WellFormed.lean ====
section
/-! DEFINITION. Which instructions the encoding tables can spell. The operand types already exclude
every ill-formed value but one: a `F.TEMPO` row with value 0, which is the row `F.TEMPO_ZERO`
(spec/30_encoding.md R65; 43_frame_decode.md R119 "tested after rule R120"). -/

namespace Sys2Proof

/-- The instruction is the one its encoding stands for. -/
def Instr.wellFormed : Instr → Bool
  | .fTempo _ _ tempo => tempo != 0#24
  | .idle | .crcClr | .crcBit _ | .crcByte _ | .crcRd | .reserved5 | .reserved67 _ | .fpStart
  | .fpStop | .fpByte _ | .fpAbort _ | .reservedCF _ | .fKey .. | .fTempoZero .. | .fEnd ..
  | .fNop .. | .fParam .. | .fParamBadId .. | .fSkip .. | .fUnknown67 .. | .fUnknown8F .. => true

/-- Format F: the instruction is a whole telemetry frame; otherwise it is a command word. -/
def Instr.isFrame : Instr → Bool
  | .fKey .. | .fTempoZero .. | .fTempo .. | .fEnd .. | .fNop .. | .fParam .. | .fParamBadId ..
  | .fSkip .. | .fUnknown67 .. | .fUnknown8F .. => true
  | .idle | .crcClr | .crcBit _ | .crcByte _ | .crcRd | .reserved5 | .reserved67 _ | .fpStart
  | .fpStop | .fpByte _ | .fpAbort _ | .reservedCF _ => false

/-- The operation belongs to unit CRCG (30_encoding.md R61). -/
def Instr.isCrcg : Instr → Bool
  | .crcClr | .crcBit _ | .crcByte _ | .crcRd => true
  | .idle | .reserved5 | .reserved67 _ | .fpStart | .fpStop | .fpByte _ | .fpAbort _
  | .reservedCF _ | .fKey .. | .fTempoZero .. | .fTempo .. | .fEnd .. | .fNop .. | .fParam ..
  | .fParamBadId .. | .fSkip .. | .fUnknown67 .. | .fUnknown8F .. => false

/-- The operation belongs to unit FFP (30_encoding.md R61); a frame belongs to it too. -/
def Instr.isFfp : Instr → Bool
  | .fpStart | .fpStop | .fpByte _ | .fpAbort _ | .fKey .. | .fTempoZero .. | .fTempo ..
  | .fEnd .. | .fNop .. | .fParam .. | .fParamBadId .. | .fSkip .. | .fUnknown67 ..
  | .fUnknown8F .. => true
  | .idle | .crcClr | .crcBit _ | .crcByte _ | .crcRd | .reserved5 | .reserved67 _
  | .reservedCF _ => false

end Sys2Proof
end

