-- ==== Sys2Proof/Decode.lean ====
section
/-! DEFINITION. Decoding of command words (format C) and telemetry frames (format F), the opcode
table as the spec prints it, and the encoder (spec/30_encoding.md R60 to R68,
spec/opcode_table.json). The machine never sees a raw encoding. -/

namespace Sys2Proof

/-! ### Fields -/

/-- `b[7:4]` (00_scope.md R8). -/
def highNibble (b : Byte) : Nibble := b.extractLsb' 4 4

/-- `b[3:0]` (00_scope.md R8). -/
def lowNibble (b : Byte) : Nibble := b.extractLsb' 0 4

/-- `cmd[11:8] = op` (R60). -/
def cmdOp (w : CmdWord) : Nibble := w.extractLsb' 8 4

/-- `cmd[7:0] = data` (R60). -/
def cmdData (w : CmdWord) : Byte := w.extractLsb' 0 8

/-- `cause = data[0]`: 0 is `TIMEOUT`, 1 is `IO_ERROR` (R61, R104). -/
def causeOfBit (b : Bool) : ErrCause := if b then .ioError else .timeout

/-- The bit that stands for a cause (R104, 60_exceptions.md R140). -/
def bitOfCause : ErrCause → Bool
  | .timeout => false
  | .ioError => true

/-- The raw fields of five bytes in order of arrival (R46, R48, R63). -/
def frameOfBytes (byte0 byte1 byte2 byte3 byte4 : Byte) : Frame :=
  { marker := byte0, flag := highNibble byte1, chan := lowNibble byte1,
    b2 := byte2, b3 := byte3, b4 := byte4 }

/-- The raw fields of the word `F` (R63): `F[39:32]`, `F[31:28]`, `F[27:24]`, `F[23:16]`,
`F[15:8]`, `F[7:0]`. -/
def frameOfWord (F : FrameWord) : Frame :=
  { marker := F.extractLsb' 32 8, flag := F.extractLsb' 28 4, chan := F.extractLsb' 24 4,
    b2 := F.extractLsb' 16 8, b3 := F.extractLsb' 8 8, b4 := F.extractLsb' 0 8 }

/-- `byte[1]` of a frame: the flag in the high nibble, the channel in the low one (R48, R63). -/
def Frame.byte1 (f : Frame) : Byte := f.flag ++ f.chan

/-- The word `F = {marker, flag, chan, b2, b3, b4}` (00_scope.md R9, R63). -/
def Frame.word (f : Frame) : FrameWord := f.marker ++ f.flag ++ f.chan ++ f.b2 ++ f.b3 ++ f.b4

/-- `F[23:0]`, the tempo value `{byte[2], byte[3], byte[4]}`, `byte[2]` most significant (R47). -/
def Frame.tempo (f : Frame) : TempoWord := f.b2 ++ f.b3 ++ f.b4

/-! ### Format C -/

/-- The operation a command word selects, on `cmd[11:8]` alone (R61, R62; 40_common_ops.md R82).
Every word has one. -/
def decodeCmd (w : CmdWord) : Instr :=
  if cmdOp w = 0x0#4 then .idle
  else if cmdOp w = 0x1#4 then .crcClr
  else if cmdOp w = 0x2#4 then .crcBit ((cmdData w).getLsbD 0)
  else if cmdOp w = 0x3#4 then .crcByte (cmdData w)
  else if cmdOp w = 0x4#4 then .crcRd
  else if cmdOp w = 0x5#4 then .reserved5
  else if cmdOp w = 0x6#4 then .reserved67 0#1
  else if cmdOp w = 0x7#4 then .reserved67 1#1
  else if cmdOp w = 0x8#4 then .fpStart
  else if cmdOp w = 0x9#4 then .fpStop
  else if cmdOp w = 0xA#4 then .fpByte (cmdData w)
  else if cmdOp w = 0xB#4 then .fpAbort (causeOfBit ((cmdData w).getLsbD 0))
  else .reservedCF ((cmdOp w).extractLsb' 0 2)

/-! ### Format F -/

/-- The ten rows of format F. -/
inductive FrameRow where
  | key | tempoZero | tempo | endOfSequence | nop | param | paramBadId | skip | unknown67 | unknown8F
  deriving DecidableEq, Repr

/-- The row of a frame: the flag map of R65, in the order of evaluation of 60_exceptions.md R148
(the flag first; then the zero test for flag 1; `b2[7]` for flag 4). -/
def frameRow (f : Frame) : FrameRow :=
  if f.flag = 0#4 then .key
  else if f.flag = 1#4 then (if f.tempo = 0#24 then .tempoZero else .tempo)
  else if f.flag = 2#4 then .endOfSequence
  else if f.flag = 3#4 then .nop
  else if f.flag = 4#4 then (if f.b2.getLsbD 7 then .paramBadId else .param)
  else if f.flag = 5#4 then .skip
  else if f.flag.getLsbD 3 then .unknown8F
  else .unknown67

/-- The instruction a frame stands for. Format F has no illegal encoding (R67). -/
def decodeFrame (f : Frame) : Instr :=
  match frameRow f with
  | .key => .fKey f.marker f.chan f.b2 f.b3 f.b4
  | .tempoZero => .fTempoZero f.marker f.chan
  | .tempo => .fTempo f.marker f.chan f.tempo
  | .endOfSequence => .fEnd f.marker f.chan f.b2 f.b3 f.b4
  | .nop => .fNop f.marker f.chan f.b2 f.b3 f.b4
  | .param => .fParam f.marker f.chan (f.b2.extractLsb' 4 3) (lowNibble f.b2) f.b3 f.b4
  | .paramBadId => .fParamBadId f.marker f.chan (f.b2.extractLsb' 0 7) f.b3 f.b4
  | .skip => .fSkip f.marker f.chan f.b2 f.b3 f.b4
  | .unknown67 => .fUnknown67 f.marker (f.flag.extractLsb' 0 1) f.chan f.b2 f.b3 f.b4
  | .unknown8F => .fUnknown8F f.marker (f.flag.extractLsb' 0 3) f.chan f.b2 f.b3 f.b4

/-- The frame an instruction of format F is; a command word is none. -/
def Instr.frame? : Instr → Option Frame
  | .fKey marker chan b2 key velocity => some ⟨marker, 0#4, chan, b2, key, velocity⟩
  | .fTempoZero marker chan => some ⟨marker, 1#4, chan, 0#8, 0#8, 0#8⟩
  | .fTempo marker chan tempo =>
    some ⟨marker, 1#4, chan, tempo.extractLsb' 16 8, tempo.extractLsb' 8 8, tempo.extractLsb' 0 8⟩
  | .fEnd marker chan b2 b3 b4 => some ⟨marker, 2#4, chan, b2, b3, b4⟩
  | .fNop marker chan b2 b3 b4 => some ⟨marker, 3#4, chan, b2, b3, b4⟩
  | .fParam marker chan paramId slot value b4 =>
    some ⟨marker, 4#4, chan, 0#1 ++ paramId ++ slot, value, b4⟩
  | .fParamBadId marker chan low b3 b4 => some ⟨marker, 4#4, chan, 1#1 ++ low, b3, b4⟩
  | .fSkip marker chan b2 b3 b4 => some ⟨marker, 5#4, chan, b2, b3, b4⟩
  | .fUnknown67 marker f chan b2 b3 b4 => some ⟨marker, 0b011#3 ++ f, chan, b2, b3, b4⟩
  | .fUnknown8F marker f chan b2 b3 b4 => some ⟨marker, 1#1 ++ f, chan, b2, b3, b4⟩
  | .idle | .crcClr | .crcBit _ | .crcByte _ | .crcRd | .reserved5 | .reserved67 _ | .fpStart
  | .fpStop | .fpByte _ | .fpAbort _ | .reservedCF _ => none

/-! ### Bytes -/

/-- Why a row of bytes is no instruction. -/
inductive DecodeError where
  /-- neither the two bytes that hold a command word nor the five of a frame (R60, R63, R66) -/
  | wrongLength
  /-- two bytes whose top four bits are not 0: a command word has 12 bits (R60) -/
  | moreThanTwelveBits
  deriving DecidableEq, Repr

/-- The instruction in a row of bytes: five bytes are a frame in order of arrival (R46, R63), two
bytes a command word, its high byte first. DESIGN CHOICE (log 11): the spec stores no command word
in bytes; the order follows R43. -/
def decode : List Byte → Except DecodeError Instr
  | [hi, lo] =>
    if highNibble hi = 0#4 then .ok (decodeCmd (lowNibble hi ++ lo)) else .error .moreThanTwelveBits
  | [byte0, byte1, byte2, byte3, byte4] =>
    .ok (decodeFrame (frameOfBytes byte0 byte1 byte2 byte3 byte4))
  | _ => .error .wrongLength

/-! ### The encoder -/

/-- The command word of an instruction of format C, ignored bits 0 (R61, R62, R71); a frame has
none. -/
def Instr.cmd? : Instr → Option CmdWord
  | .idle => some 0x000#12
  | .crcClr => some 0x100#12
  | .crcBit d => some (0x2#4 ++ 0#7 ++ BitVec.ofBool d)
  | .crcByte b => some (0x3#4 ++ b)
  | .crcRd => some 0x400#12
  | .reserved5 => some 0x500#12
  | .reserved67 o => some (0b011#3 ++ o ++ 0#8)
  | .fpStart => some 0x800#12
  | .fpStop => some 0x900#12
  | .fpByte b => some (0xA#4 ++ b)
  | .fpAbort cause => some (0xB#4 ++ 0#7 ++ BitVec.ofBool (bitOfCause cause))
  | .reservedCF o => some (0b11#2 ++ o ++ 0#8)
  | .fKey .. | .fTempoZero .. | .fTempo .. | .fEnd .. | .fNop .. | .fParam .. | .fParamBadId ..
  | .fSkip .. | .fUnknown67 .. | .fUnknown8F .. => none

/-- The two bytes of a command word (log 11). -/
def cmdBytes (w : CmdWord) : List Byte := [0#4 ++ cmdOp w, cmdData w]

/-- The five bytes of a frame in order of arrival (R63). -/
def Frame.bytes (f : Frame) : List Byte := [f.marker, f.byte1, f.b2, f.b3, f.b4]

/-- The bytes of an instruction, by the encoding tables of 30_encoding.md. -/
def encode (i : Instr) : List Byte :=
  match i.cmd?, i.frame? with
  | some w, _ => cmdBytes w
  | none, some f => f.bytes
  | none, none => []

/-- The instruction the decoder reads from a row of the opcode table whose bits are `w`: a row of
format C has 12 bits, two bytes; a row of format F has 40, five bytes, `byte[0]` in bits 39:32. -/
def decodeTableWord (nbits w : Nat) : Option Instr :=
  if nbits ≤ 16 then
    if w < 2 ^ 16 then (decode [BitVec.ofNat 8 (w / 256), BitVec.ofNat 8 w]).toOption else none
  else if nbits ≤ 40 then
    if w < 2 ^ 40 then
      (decode [BitVec.ofNat 8 (w / 2 ^ 32), BitVec.ofNat 8 (w / 2 ^ 24), BitVec.ofNat 8 (w / 2 ^ 16),
        BitVec.ofNat 8 (w / 2 ^ 8), BitVec.ofNat 8 w]).toOption
    else none
  else none

/-! ### The opcode table as printed -/

/-- One row of spec/opcode_table.json: its mnemonic, `match` and `mask`. -/
structure TableRow (n : Nat) where
  mnemonic : String
  pattern : BitVec n
  mask : BitVec n
  deriving DecidableEq, Repr

/-- The word has the row's fixed bits. -/
def TableRow.hits {n : Nat} (r : TableRow n) (w : BitVec n) : Bool := w &&& r.mask == r.pattern

/-- The rows of format C. -/
def cmdTable : List (TableRow 12) :=
  [ ⟨"IDLE", 0x000#12, 0xF00#12⟩, ⟨"CRC_CLR", 0x100#12, 0xF00#12⟩, ⟨"CRC_BIT", 0x200#12, 0xF00#12⟩,
    ⟨"CRC_BYTE", 0x300#12, 0xF00#12⟩, ⟨"CRC_RD", 0x400#12, 0xF00#12⟩,
    ⟨"RESERVED_5", 0x500#12, 0xF00#12⟩, ⟨"RESERVED_6_7", 0x600#12, 0xE00#12⟩,
    ⟨"FP_START", 0x800#12, 0xF00#12⟩, ⟨"FP_STOP", 0x900#12, 0xF00#12⟩,
    ⟨"FP_BYTE", 0xA00#12, 0xF00#12⟩, ⟨"FP_ABORT", 0xB00#12, 0xF00#12⟩,
    ⟨"RESERVED_C_F", 0xC00#12, 0xC00#12⟩ ]

/-- The rows of format F, in the table's order: `F.TEMPO_ZERO` is matched before `F.TEMPO`. -/
def frameTable : List (TableRow 40) :=
  [ ⟨"F.KEY", 0x0000000000#40, 0x00F0000000#40⟩,
    ⟨"F.TEMPO_ZERO", 0x0010000000#40, 0x00F0FFFFFF#40⟩,
    ⟨"F.TEMPO", 0x0010000000#40, 0x00F0000000#40⟩,
    ⟨"F.END", 0x0020000000#40, 0x00F0000000#40⟩,
    ⟨"F.NOP", 0x0030000000#40, 0x00F0000000#40⟩,
    ⟨"F.PARAM", 0x0040000000#40, 0x00F0800000#40⟩,
    ⟨"F.PARAM_BAD_ID", 0x0040800000#40, 0x00F0800000#40⟩,
    ⟨"F.SKIP", 0x0050000000#40, 0x00F0000000#40⟩,
    ⟨"F.UNKNOWN_6_7", 0x0060000000#40, 0x00E0000000#40⟩,
    ⟨"F.UNKNOWN_8_F", 0x0080000000#40, 0x0080000000#40⟩ ]

/-- The row's name in spec/opcode_table.json. -/
def Instr.mnemonic : Instr → String
  | .idle => "IDLE"
  | .crcClr => "CRC_CLR"
  | .crcBit _ => "CRC_BIT"
  | .crcByte _ => "CRC_BYTE"
  | .crcRd => "CRC_RD"
  | .reserved5 => "RESERVED_5"
  | .reserved67 _ => "RESERVED_6_7"
  | .fpStart => "FP_START"
  | .fpStop => "FP_STOP"
  | .fpByte _ => "FP_BYTE"
  | .fpAbort _ => "FP_ABORT"
  | .reservedCF _ => "RESERVED_C_F"
  | .fKey .. => "F.KEY"
  | .fTempoZero .. => "F.TEMPO_ZERO"
  | .fTempo .. => "F.TEMPO"
  | .fEnd .. => "F.END"
  | .fNop .. => "F.NOP"
  | .fParam .. => "F.PARAM"
  | .fParamBadId .. => "F.PARAM_BAD_ID"
  | .fSkip .. => "F.SKIP"
  | .fUnknown67 .. => "F.UNKNOWN_6_7"
  | .fUnknown8F .. => "F.UNKNOWN_8_F"

end Sys2Proof
end

