-- ==== Sys2Proof/Machine/State.lean ====
section
/-! DEFINITION. The state of CRCFP (spec/10_state.md R20 to R23), its output record (R30), the events
and conditions the record reports, and the state after reset (R33). -/

namespace Sys2Proof.Machine

/-! ### The parser's run state -/

/-- `fp_state`, 2 bits (R23; codes by `FpState.code`). -/
inductive FpState where
  /-- 0: parser disabled -/
  | idle
  /-- 1: collecting and decoding frames -/
  | run
  /-- 2: an End frame was decoded -/
  | ended
  /-- 3: a read failure ended the session -/
  | failed
  deriving DecidableEq, Repr

/-! ### Events -/

/-- The closed event set of 43_frame_decode.md R115. -/
inductive PlaybackEvent where
  | key (channel : Nibble) (key velocity : Byte)
  | tempo (microsecondsPerBeat : TempoWord)
  | endOfSequence
  | nop
  | param (slot paramId : Nibble) (value : Byte)
  | skipTrack
  | unknown (flag : Nibble)
  deriving DecidableEq, Repr

/-- What `decode(F)` returns: an event, or the rejection of a zero tempo (R115, R120). -/
inductive DecodeResult where
  | event (e : PlaybackEvent)
  | rejectTempoZero
  deriving DecidableEq, Repr

/-- `ev_kind`, 3 bits (R116; codes by `EvKind.code`). Code 6 is never output (I11). -/
inductive EvKind where
  | key | tempo | endOfSequence | nop | param | skipTrack | unknown
  deriving DecidableEq, Repr

/-- `rej_reason`, 2 bits: 0 is `TEMPO_ZERO`, 1 to 3 are unused (10_state.md R30; I11). -/
inductive RejReason where
  | tempoZero
  deriving DecidableEq, Repr

/-- The complete list of conditions (60_exceptions.md R140). -/
inductive Condition where
  /-- an `FP_ABORT` in `RUN` (R141) -/
  | readFailure (cause : ErrCause)
  /-- a completed zero-tempo frame (R142) -/
  | tempoZero
  /-- an `FP_BYTE` outside `RUN` (R143) -/
  | dropped
  /-- a reserved opcode (R144) -/
  | badOp
  deriving DecidableEq, Repr

/-! ### The output record -/

/-- The output record of a step (10_state.md R30). A strobe that a rule does not set is 0; a data
field that has no value in a step is absent, `none` (R10, D21). -/
structure Output where
  /-- `tx`: bytes sent out, in order -/
  tx : List Byte := []
  /-- `frame_valid` -/
  frameValid : Bool := false
  /-- `ev_valid` -/
  evValid : Bool := false
  /-- `rej_valid` -/
  rejValid : Bool := false
  /-- `rej_reason` -/
  rejReason : Option RejReason := none
  /-- `err_valid` -/
  errValid : Bool := false
  /-- `err_cause` -/
  errCause : Option ErrCause := none
  /-- `drop` -/
  drop : Bool := false
  /-- `bad_op` -/
  badOp : Bool := false
  /-- `f_marker` -/
  fMarker : Option Byte := none
  /-- `f_flag` -/
  fFlag : Option Nibble := none
  /-- `f_chan` -/
  fChan : Option Nibble := none
  /-- `f_b2` -/
  fB2 : Option Byte := none
  /-- `f_b3` -/
  fB3 : Option Byte := none
  /-- `f_b4` -/
  fB4 : Option Byte := none
  /-- `marker_ok` -/
  markerOk : Option Bool := none
  /-- `ev_kind` -/
  evKind : Option EvKind := none
  /-- `key` -/
  key : Option Byte := none
  /-- `velocity` -/
  velocity : Option Byte := none
  /-- `note_on` -/
  noteOn : Option Bool := none
  /-- `tempo` -/
  tempo : Option TempoWord := none
  /-- `param_id` -/
  paramId : Option Nibble := none
  /-- `slot` -/
  slot : Option Nibble := none
  /-- `value` -/
  value : Option Byte := none
  /-- `unk_flag` -/
  unkFlag : Option Nibble := none
  deriving DecidableEq, Repr

/-- The record of a step that raises nothing and sends nothing (R10, R30). -/
def Output.quiet : Output := {}

/-! ### Inputs -/

/-- The two inputs of one step: the reset input and the command port (R30). -/
structure Input where
  rst : Bool
  cmd : CmdWord
  deriving DecidableEq, Repr

/-! ### State -/

/-- The state of the block, and beside it what the model carries: the record of the last step, the
OPEN parameters, the inputs that are fixed for the coming steps, and a counter for free values. -/
structure State where
  /-- `crc` (R20) -/
  crc : CrcWord
  /-- `buf[0..4]` (R21) -/
  buf : Vector Byte 5
  /-- `cnt`, 0 to 4 (R22; I11 allows a type that holds no other value; log 10) -/
  cnt : Fin 5
  /-- `fp_state` (R23) -/
  fpState : FpState
  /-- the output record of the step just taken (R30; log 5) -/
  out : Output
  /-- `ERR_POLICY` and `MARKER_EXPECT` (00_scope.md R7, R12; log 4) -/
  params : Params
  /-- DESIGN CHOICE (log 1): the input pairs of the coming steps that are fixed, the next one first -/
  pending : List Input
  /-- DESIGN CHOICE (log 12): steps taken, read by the free values alone -/
  tick : Nat
  deriving DecidableEq, Repr

/-- Why the block stops: it never does ("Nothing in this block is treated as `fault` or `stuck`",
spec/93_implementation_defined.md; log 13). -/
inductive Fault where
  deriving DecidableEq, Repr

/-- Why the model has no meaning for an instruction. -/
inductive Refusal where
  /-- Raised by an arm of `exec` that has no meaning yet; no arm does. Safe: it proves nothing about
  the hardware. -/
  | notModelled (mnemonic : String)
  deriving DecidableEq, Repr

/-- The machine right after reset (R33, 70_reset_and_hazards.md R160). `buf` has no reset value in
the spec: zero bytes are a DESIGN CHOICE (log 2, unsafe). The parameters stand at the defaults of
00_scope.md R7 (log 4); no input is pending (log 1). -/
def State.reset : State :=
  { crc := 0x0000#16
    buf := #v[0#8, 0#8, 0#8, 0#8, 0#8]
    cnt := 0
    fpState := .idle
    out := Output.quiet
    params := Config.defaultParams
    pending := []
    tick := 0 }

end Sys2Proof.Machine
end

