-- ==== Sys2Proof/Machine/Operands.lean ====
section
/-! DEFINITION. The operand forms of the telemetry frame (spec/30_encoding.md R63, R64), the pure
function `decode(F)` (spec/43_frame_decode.md R115), and the codes of the enumerated values on the
block's ports. -/

namespace Sys2Proof.Machine

/-! ### Codes -/

/-- The value of `fp_state_out[1:0]` (10_state.md R23, R31; D9). -/
def FpState.code : FpState → BitVec 2
  | .idle => 0#2
  | .run => 1#2
  | .ended => 2#2
  | .failed => 3#2

/-- The value of `ev_kind[2:0]` (43_frame_decode.md R116; D16). -/
def EvKind.code : EvKind → BitVec 3
  | .key => 0#3
  | .tempo => 1#3
  | .endOfSequence => 2#3
  | .nop => 3#3
  | .param => 4#3
  | .skipTrack => 5#3
  | .unknown => 7#3

/-- The value of `rej_reason[1:0]` (60_exceptions.md R140). -/
def RejReason.code : RejReason → BitVec 2
  | .tempoZero => 0#2

/-- The value of `err_cause` (60_exceptions.md R140, R141). -/
def errCauseCode (c : ErrCause) : BitVec 1 := BitVec.ofBool (bitOfCause c)

/-! ### The sub-fields of the payload bytes (R64) -/

/-- `param_id = F[23:20] = b2[7:4]`, four bits, unsigned. -/
def frameParamId (f : Frame) : Nibble := highNibble f.b2

/-- `slot = F[19:16] = b2[3:0]` (not `chan`: spec/90_conflicts.md C3). -/
def frameSlot (f : Frame) : Nibble := lowNibble f.b2

/-- A legal sub-id of three bits as the four-bit field it is output on. -/
def paramIdField (p : BitVec 3) : Nibble := 0#1 ++ p

/-- The four-bit flag of a `F.UNKNOWN_6_7` row, `011f`. -/
def flagOf67 (f : BitVec 1) : Nibble := 0b011#3 ++ f

/-- The four-bit flag of a `F.UNKNOWN_8_F` row, `1fff`. -/
def flagOf8F (f : BitVec 3) : Nibble := 1#1 ++ f

/-- The five bytes of a frame as they stand in `buf` (R46, R63). -/
def frameBuffer (f : Frame) : Vector Byte 5 := #v[f.marker, f.byte1, f.b2, f.b3, f.b4]

/-! ### The decode function -/

/-- `decode(F)` (R115): total, reads `F[31:0]` only, has no state (R130). -/
def frameDecode (f : Frame) : DecodeResult :=
  match f.flag.toNat with
  | 0 => .event (.key f.chan f.b3 f.b4)
  | 1 => if f.tempo = 0#24 then .rejectTempoZero else .event (.tempo f.tempo)
  | 2 => .event .endOfSequence
  | 3 => .event .nop
  | 4 =>
    if f.b2.getLsbD 7 then .event (.unknown 4#4)
    else .event (.param (frameSlot f) (frameParamId f) f.b3)
  | 5 => .event .skipTrack
  | _ => .event (.unknown f.flag)

end Sys2Proof.Machine
end

