-- ==== Sys2Proof/Machine/Flags.lean ====
section
/-! DEFINITION. The one-bit results of a step: `note_on`, `marker_ok` and the strobes that depend on
what a frame decoded to (spec/10_state.md R25, R30; spec/43_frame_decode.md R118, R127, R128). The
block has no condition codes (R25). -/

namespace Sys2Proof.Machine

/-- `note_on`: 1 when the velocity is not 0 (R118). -/
def noteOn (velocity : Byte) : Bool := velocity != 0#8

/-- `marker_ok` (R128): 1 for every frame where `MARKER_EXPECT` is `none`, else whether the marker
is the expected byte. It changes nothing else. -/
def markerOk (p : Params) (marker : Byte) : Bool :=
  match p.markerExpect with
  | none => true
  | some m => marker == m

/-- Whether a result is forwarded to the consumer, `ev_valid` (R127): every event but `NopEvent`. -/
def DecodeResult.forwarded : DecodeResult → Bool
  | .event .nop => false
  | .event _ => true
  | .rejectTempoZero => false

/-- Whether a result is a rejection, `rej_valid` (R127). -/
def DecodeResult.rejected : DecodeResult → Bool
  | .event _ => false
  | .rejectTempoZero => true

/-- What an output record presents of a completed frame, read back from its fields (R30, R117 "views
of the same bits"); `none` where the record presents no frame. -/
def Output.presents (o : Output) : Option DecodeResult :=
  match o.evKind with
  | none => none
  | some .key =>
    match o.fChan, o.key, o.velocity with
    | some c, some k, some v => some (.event (.key c k v))
    | _, _, _ => none
  | some .tempo =>
    if o.rejValid then some .rejectTempoZero
    else
      match o.tempo with
      | some t => some (.event (.tempo t))
      | none => none
  | some .endOfSequence => some (.event .endOfSequence)
  | some .nop => some (.event .nop)
  | some .param =>
    match o.slot, o.paramId, o.value with
    | some s, some p, some v => some (.event (.param s p v))
    | _, _, _ => none
  | some .skipTrack => some (.event .skipTrack)
  | some .unknown =>
    match o.unkFlag with
    | some f => some (.event (.unknown f))
    | none => none

end Sys2Proof.Machine
end

