-- ==== Sys2Proof/Machine/Ops.lean ====
section
/-! DEFINITION. The named operations every meaning is written with: writes of the state elements,
the CRC functions, reporting a condition, presenting a frame, the reset step and the block's inputs
and continuous outputs. -/

namespace Sys2Proof.Machine

/-! ### Writes of one state element -/

/-- Sets the step's output record (10_state.md R30). -/
def respond (o : Output) (s : State) : State := { s with out := o }

/-- `crc <- c` (R20). -/
def writeCrc (c : CrcWord) (s : State) : State := { s with crc := c }

/-- `fp_state <- f; cnt <- 0`: every write of `fp_state` returns `cnt` to 0 (R101 to R104, R160). -/
def setParser (f : FpState) (s : State) : State := { s with fpState := f, cnt := 0 }

/-- `buf[cnt] <- b; cnt <- cnt + 1`, `cnt` returning from 4 to 0 (R21, R24, R103). -/
def storeByte (b : Byte) (s : State) : State :=
  { s with buf := s.buf.set s.cnt.val b s.cnt.isLt, cnt := s.cnt + 1 }

/-- `buf` holds the five bytes of a completed frame (R46). -/
def storeFrame (f : Frame) (s : State) : State := { s with buf := frameBuffer f }

/-- `buf` is unspecified: a free value (R33, R160; D23; log 3). -/
def releaseBuf (s : State) : State :=
  { s with buf := Vector.ofFn (fun i => Config.resetByte s.tick i) }

/-! ### The CRC functions -/

/-- `crc_bit(c, d)` (41_crc.md R86; G1, log 8). -/
def crcBit (c : CrcWord) (d : Bool) : CrcWord :=
  if c.getLsbD 15 ^^ d then (c <<< 1) ^^^ Config.crcPoly else c <<< 1

/-- `crc_byte(c, b)`: eight bit steps, bit 7 of `b` first (R87, R44). -/
def crcByte (c : CrcWord) (b : Byte) : CrcWord :=
  [7, 6, 5, 4, 3, 2, 1, 0].foldl (fun r i => crcBit r (b.getLsbD i)) c

/-- `crc[15:8]` (R43). -/
def crcHi (c : CrcWord) : Byte := c.extractLsb' 8 8

/-- `crc[7:0]` (R43). -/
def crcLo (c : CrcWord) : Byte := c.extractLsb' 0 8

/-! ### Conditions -/

/-- Reports a condition on the record: its strobe and its information field (60_exceptions.md R140
to R144). This is all of the block's exception entry: nothing is saved and control goes nowhere
(R150). There is no return (R152). -/
def raise (c : Condition) (o : Output) : Output :=
  match c with
  | .readFailure cause => { o with errValid := true, errCause := some cause }
  | .tempoZero => { o with rejValid := true, rejReason := some .tempoZero }
  | .dropped => { o with drop := true }
  | .badOp => { o with badOp := true }

/-- The whole effect of a step that does nothing but raise a condition (R143, R144). -/
def report (c : Condition) (s : State) : State := respond (raise c Output.quiet) s

/-! ### Frames -/

/-- The record of a completed frame before its decoded view: `frame_valid`, the six raw fields and
`marker_ok` (42_frame_parser.md R103; 43_frame_decode.md R117, R128). -/
def frameRecord (p : Params) (f : Frame) : Output :=
  { Output.quiet with
    frameValid := true
    fMarker := some f.marker
    fFlag := some f.flag
    fChan := some f.chan
    fB2 := some f.b2
    fB3 := some f.b3
    fB4 := some f.b4
    markerOk := some (markerOk p f.marker) }

/-- The event on the record is forwarded: `ev_valid` (R127). -/
def forward (o : Output) : Output := { o with evValid := true }

/-- The view of an unknown flag (R124, R126). -/
def presentUnknown (flag : Nibble) (o : Output) : Output :=
  forward { o with evKind := some .unknown, unkFlag := some flag }

/-- The completion of frame `f`: its bytes are in `buf`, `cnt` is back at 0, the parser goes to
`after`, and the record shows the raw fields and the view `present` adds. Outside `RUN` no frame is
processed and its bytes are dropped (42_frame_parser.md R103, R105; log 6). -/
def completeFrame (f : Frame) (present : Output → Output) (after : FpState) (s : State) : State :=
  if s.fpState = .run then
    respond (present (frameRecord s.params f)) (setParser after (storeFrame f s))
  else report .dropped s

/-! ### Reset -/

/-- The reset step (70_reset_and_hazards.md R160): no strobe, no condition (R161). -/
def resetStep (s : State) : State :=
  respond Output.quiet (setParser .idle (writeCrc Config.crcInit (releaseBuf s)))

/-! ### Inputs and continuous outputs -/

/-- The input pair of the coming step: the pending one, else whatever the environment presents
(00_scope.md R12; log 1). -/
def nextInput (s : State) : Input :=
  match s.pending with
  | i :: _ => i
  | [] => { rst := Config.envRst s.tick, cmd := Config.envCmd s.tick }

/-- The input pair of a step is used up by it, whatever the step does (R56, R161). -/
def takeInput (s : State) : State := { s with pending := s.pending.tail, tick := s.tick + 1 }

/-- The pair is what the block is presented with next, before all that is pending (log 7). -/
def presentNext (i : Input) (s : State) : State := { s with pending := i :: s.pending }

/-- The command word `w` is what the next step reads, reset not asserted (log 7). -/
def placeCmd (w : CmdWord) (s : State) : State := presentNext { rst := false, cmd := w } s

/-- The next step completes frame `f`: the parser runs, the first four bytes are collected and the
fifth is the next `FP_BYTE` (R103; log 7). -/
def placeFrame (f : Frame) (s : State) : State :=
  placeCmd (0xA#4 ++ f.b4)
    { s with
      fpState := .run
      cnt := 4
      buf := #v[f.marker, f.byte1, f.b2, f.b3, s.buf[4]] }

/-- Where the fetch finds the table row whose bits are `w`: a row of format C has 12 bits, one of
format F 40 (30_encoding.md R60, R63). -/
def placeTableWord (nbits w : Nat) (s : State) : State :=
  if nbits ≤ 16 then placeCmd (BitVec.ofNat 12 w) s
  else placeFrame (frameOfWord (BitVec.ofNat 40 w)) s

/-- `crc_out` (10_state.md R31). -/
def crcOut (s : State) : CrcWord := s.crc

/-- `fp_state_out` (R31). -/
def fpStateOut (s : State) : BitVec 2 := FpState.code s.fpState

/-- `fp_cnt` (R31). -/
def fpCnt (s : State) : BitVec 3 := BitVec.ofNat 3 s.cnt.val

end Sys2Proof.Machine
end

