-- ==== Sys2Proof/Machine/Common.lean ====
section
/-! DEFINITION. `IDLE` and the reserved command words (spec/40_common_ops.md). -/

namespace Sys2Proof.Machine

/-- `IDLE` (R80): nothing. -/
def execIdle (s : State) : Host.Outcome State Fault Refusal := .next (respond Output.quiet s)

/-- Reserved opcode 5 (R81): `BadOp`, no state change. -/
def execReserved5 (s : State) : Host.Outcome State Fault Refusal := .next (report .badOp s)

/-- Reserved opcodes 6 and 7 (R81): `BadOp`, no state change, whichever of the two it is. -/
def execReserved67 (_o : BitVec 1) (s : State) : Host.Outcome State Fault Refusal :=
  .next (report .badOp s)

/-- Reserved opcodes C to F (R81): `BadOp`, no state change, whichever of the four it is. -/
def execReservedCF (_o : BitVec 2) (s : State) : Host.Outcome State Fault Refusal :=
  .next (report .badOp s)

end Sys2Proof.Machine
end

