-- ==== Sys2Proof/Machine/Crc.lean ====
section
/-! DEFINITION. Unit CRCG (spec/41_crc.md). Every operation is legal in every state and touches
nothing of unit FFP (R88; spec/20_memory.md R57). -/

namespace Sys2Proof.Machine

/-- `CRC_CLR` (R88): `crc <- 0x0000`. -/
def execCrcClr (s : State) : Host.Outcome State Fault Refusal :=
  .next (respond Output.quiet (writeCrc Config.crcInit s))

/-- `CRC_BIT d` (R89): `crc <- crc_bit(crc, d)`. -/
def execCrcBit (d : Bool) (s : State) : Host.Outcome State Fault Refusal :=
  .next (respond Output.quiet (writeCrc (crcBit s.crc d) s))

/-- `CRC_BYTE b` (R90): `crc <- crc_byte(crc, b)`. -/
def execCrcByte (b : Byte) (s : State) : Host.Outcome State Fault Refusal :=
  .next (respond Output.quiet (writeCrc (crcByte s.crc b) s))

/-- `CRC_RD` (R91): emits the register, high byte first, and leaves it alone. -/
def execCrcRd (s : State) : Host.Outcome State Fault Refusal :=
  .next (respond { Output.quiet with tx := [crcHi s.crc, crcLo s.crc] } s)

end Sys2Proof.Machine
end

