-- ==== Sys2Proof/Machine/FrameDecode.lean ====
section
/-! DEFINITION. The ten frame kinds (spec/43_frame_decode.md R118 to R126): what the step that
completes such a frame shows and does. Log 6 says how a row of format F is executed. -/

namespace Sys2Proof.Machine

/-- Key (R118). `note_on = 0` is still a forwarded event; `b2` is not decoded. -/
def execFKey (marker : Byte) (chan : Nibble) (b2 key velocity : Byte) (s : State) :
    Host.Outcome State Fault Refusal :=
  .next (completeFrame ⟨marker, 0#4, chan, b2, key, velocity⟩
    (fun o => forward { o with
      evKind := some .key, key := some key, velocity := some velocity,
      noteOn := some (noteOn velocity) })
    .run s)

/-- Tempo with value 0 (R120): rejected by `TempoZero`, no event, the parser keeps running. -/
def execFTempoZero (marker : Byte) (chan : Nibble) (s : State) :
    Host.Outcome State Fault Refusal :=
  .next (completeFrame ⟨marker, 1#4, chan, 0#8, 0#8, 0#8⟩
    (fun o => raise .tempoZero { o with evKind := some .tempo, tempo := some 0#24 })
    .run s)

/-- Tempo (R119): the 24-bit value, no division (D27). -/
def execFTempo (marker : Byte) (chan : Nibble) (tempo : TempoWord) (s : State) :
    Host.Outcome State Fault Refusal :=
  .next (completeFrame
    ⟨marker, 1#4, chan, tempo.extractLsb' 16 8, tempo.extractLsb' 8 8, tempo.extractLsb' 0 8⟩
    (fun o => forward { o with evKind := some .tempo, tempo := some tempo })
    .run s)

/-- End (R121): forwarded, and in the same step `fp_state <- ENDED` (R103). -/
def execFEnd (marker : Byte) (chan : Nibble) (b2 b3 b4 : Byte) (s : State) :
    Host.Outcome State Fault Refusal :=
  .next (completeFrame ⟨marker, 2#4, chan, b2, b3, b4⟩
    (fun o => forward { o with evKind := some .endOfSequence })
    .ended s)

/-- Nop (R122): shown, not forwarded. -/
def execFNop (marker : Byte) (chan : Nibble) (b2 b3 b4 : Byte) (s : State) :
    Host.Outcome State Fault Refusal :=
  .next (completeFrame ⟨marker, 3#4, chan, b2, b3, b4⟩
    (fun o => { o with evKind := some .nop })
    .run s)

/-- Param with a legal sub-id (R123): the slot is the low nibble of `byte[2]`. -/
def execFParam (marker : Byte) (chan : Nibble) (paramId : BitVec 3) (slot : Nibble)
    (value b4 : Byte) (s : State) : Host.Outcome State Fault Refusal :=
  .next (completeFrame ⟨marker, 4#4, chan, 0#1 ++ paramId ++ slot, value, b4⟩
    (fun o => forward { o with
      evKind := some .param, paramId := some (paramIdField paramId), slot := some slot,
      value := some value })
    .run s)

/-- Param with sub-id 8 to 15 (R124): the unknown event of flag 4. -/
def execFParamBadId (marker : Byte) (chan : Nibble) (low : BitVec 7) (b3 b4 : Byte) (s : State) :
    Host.Outcome State Fault Refusal :=
  .next (completeFrame ⟨marker, 4#4, chan, 1#1 ++ low, b3, b4⟩ (presentUnknown 4#4) .run s)

/-- SkipTrack (R125). -/
def execFSkip (marker : Byte) (chan : Nibble) (b2 b3 b4 : Byte) (s : State) :
    Host.Outcome State Fault Refusal :=
  .next (completeFrame ⟨marker, 5#4, chan, b2, b3, b4⟩
    (fun o => forward { o with evKind := some .skipTrack })
    .run s)

/-- Unknown, flags 6 and 7 (R126): an event, not an error. -/
def execFUnknown67 (marker : Byte) (f : BitVec 1) (chan : Nibble) (b2 b3 b4 : Byte) (s : State) :
    Host.Outcome State Fault Refusal :=
  .next (completeFrame ⟨marker, flagOf67 f, chan, b2, b3, b4⟩ (presentUnknown (flagOf67 f)) .run s)

/-- Unknown, flags 8 to 15 (R126): an event, not an error. -/
def execFUnknown8F (marker : Byte) (f : BitVec 3) (chan : Nibble) (b2 b3 b4 : Byte) (s : State) :
    Host.Outcome State Fault Refusal :=
  .next (completeFrame ⟨marker, flagOf8F f, chan, b2, b3, b4⟩ (presentUnknown (flagOf8F f)) .run s)

/-- Runs the row a collected frame decodes to ("present decode(F) on the event outputs",
42_frame_parser.md R103). -/
def runFrame (f : Frame) (s : State) : Host.Outcome State Fault Refusal :=
  match frameRow f with
  | .key => execFKey f.marker f.chan f.b2 f.b3 f.b4 s
  | .tempoZero => execFTempoZero f.marker f.chan s
  | .tempo => execFTempo f.marker f.chan f.tempo s
  | .endOfSequence => execFEnd f.marker f.chan f.b2 f.b3 f.b4 s
  | .nop => execFNop f.marker f.chan f.b2 f.b3 f.b4 s
  | .param => execFParam f.marker f.chan (f.b2.extractLsb' 4 3) (lowNibble f.b2) f.b3 f.b4 s
  | .paramBadId => execFParamBadId f.marker f.chan (f.b2.extractLsb' 0 7) f.b3 f.b4 s
  | .skip => execFSkip f.marker f.chan f.b2 f.b3 f.b4 s
  | .unknown67 => execFUnknown67 f.marker (f.flag.extractLsb' 0 1) f.chan f.b2 f.b3 f.b4 s
  | .unknown8F => execFUnknown8F f.marker (f.flag.extractLsb' 0 3) f.chan f.b2 f.b3 f.b4 s

end Sys2Proof.Machine
end

