-- ==== Sys2Proof/Machine/FrameParser.lean ====
section
/-! DEFINITION. Unit FFP, collecting frames (spec/42_frame_parser.md). -/

namespace Sys2Proof.Machine

/-- `FP_START` (R101): accepted in every state; in `RUN` it restarts framing. -/
def execFpStart (s : State) : Host.Outcome State Fault Refusal :=
  .next (respond Output.quiet (setParser .run s))

/-- `FP_STOP` (R102): accepted in every state, silent. -/
def execFpStop (s : State) : Host.Outcome State Fault Refusal :=
  .next (respond Output.quiet (setParser .idle s))

/-- `FP_BYTE b` (R103): dropped outside `RUN`; stored and counted for the first four bytes; the
fifth completes the frame, with `b` as `byte[4]`. -/
def execFpByte (b : Byte) (s : State) : Host.Outcome State Fault Refusal :=
  if s.fpState = .run then
    if s.cnt.val < 4 then .next (respond Output.quiet (storeByte b s))
    else runFrame (frameOfBytes s.buf[0] s.buf[1] s.buf[2] s.buf[3] b) s
  else .next (report .dropped s)

/-- Where an accepted abort leaves the parser (R104; `ERR_POLICY`, D13). -/
def afterAbort : ErrPolicy → FpState
  | .terminate => .failed
  | .retry => .run

/-- `FP_ABORT cause` (R104): in `RUN` the partial frame is discarded and the failure reported;
elsewhere no read is pending and it is ignored. -/
def execFpAbort (cause : ErrCause) (s : State) : Host.Outcome State Fault Refusal :=
  if s.fpState = .run then
    .next (report (.readFailure cause) (setParser (afterAbort s.params.errPolicy) s))
  else .next (respond Output.quiet s)

end Sys2Proof.Machine
end

