-- ==== Sys2Proof/Machine/Dispatch.lean ====
section
/-! DEFINITION. One arm for each instruction (spec/40_common_ops.md R82). -/

namespace Sys2Proof.Machine

def exec (i : Instr) (s : State) : Host.Outcome State Fault Refusal :=
  match i with
  | .idle => Sys2Proof.Machine.execIdle s
  | .crcClr => Sys2Proof.Machine.execCrcClr s
  | .crcBit d => Sys2Proof.Machine.execCrcBit d s
  | .crcByte b => Sys2Proof.Machine.execCrcByte b s
  | .crcRd => Sys2Proof.Machine.execCrcRd s
  | .reserved5 => Sys2Proof.Machine.execReserved5 s
  | .reserved67 o => Sys2Proof.Machine.execReserved67 o s
  | .fpStart => Sys2Proof.Machine.execFpStart s
  | .fpStop => Sys2Proof.Machine.execFpStop s
  | .fpByte b => Sys2Proof.Machine.execFpByte b s
  | .fpAbort cause => Sys2Proof.Machine.execFpAbort cause s
  | .reservedCF o => Sys2Proof.Machine.execReservedCF o s
  | .fKey marker chan b2 key velocity => Sys2Proof.Machine.execFKey marker chan b2 key velocity s
  | .fTempoZero marker chan => Sys2Proof.Machine.execFTempoZero marker chan s
  | .fTempo marker chan tempo => Sys2Proof.Machine.execFTempo marker chan tempo s
  | .fEnd marker chan b2 b3 b4 => Sys2Proof.Machine.execFEnd marker chan b2 b3 b4 s
  | .fNop marker chan b2 b3 b4 => Sys2Proof.Machine.execFNop marker chan b2 b3 b4 s
  | .fParam marker chan paramId slot value b4 => Sys2Proof.Machine.execFParam marker chan paramId slot value b4 s
  | .fParamBadId marker chan low b3 b4 => Sys2Proof.Machine.execFParamBadId marker chan low b3 b4 s
  | .fSkip marker chan b2 b3 b4 => Sys2Proof.Machine.execFSkip marker chan b2 b3 b4 s
  | .fUnknown67 marker f chan b2 b3 b4 => Sys2Proof.Machine.execFUnknown67 marker f chan b2 b3 b4 s
  | .fUnknown8F marker f chan b2 b3 b4 => Sys2Proof.Machine.execFUnknown8F marker f chan b2 b3 b4 s

end Sys2Proof.Machine
end

