-- ==== Sys2Proof/Machine/Step.lean ====
section
/-! DEFINITION. One step: the complete effect of one command word or of reset (spec/00_scope.md R11,
spec/40_common_ops.md R82). -/

namespace Sys2Proof.Machine

/-- The block looks first at `rst`; with `rst = 1` the command word is not looked at (R82, R161). -/
def step (s : State) : Host.Outcome State Fault Refusal :=
  if (nextInput s).rst then .next (resetStep (takeInput s))
  else exec (decodeCmd (nextInput s).cmd) (takeInput s)

/-- The state in which the next step runs the table row whose bits are `w` (log 7). -/
def State.withFetchWord (s : State) (nbits w : Nat) : State := placeTableWord nbits w s

end Sys2Proof.Machine
end

