-- ==== Sys2Proof/Machine/Program.lean ====
section
/-! DEFINITION. Sequences of operations (spec/20_memory.md R56), the pseudo-operations
(spec/30_encoding.md R72), and the reference functions the spec states beside the block
(spec/41_crc.md R87, R95; spec/30_encoding.md R69, R70; spec/43_frame_decode.md R129). No step calls
any of them. -/

namespace Sys2Proof.Machine

/-- The fold of `exec` over a sequence of operations, in the order presented (R56). -/
def execAll : List Instr → State → Host.Outcome State Fault Refusal
  | [], s => .next s
  | i :: rest, s =>
    match exec i s with
    | .next t => execAll rest t
    | .fault r => .fault r
    | .refused r => .refused r

/-- The output records of a sequence of operations, one for each operation that answers, in order
(10_state.md R30, R31). -/
def outputsOf : List Instr → State → List Output
  | [], _ => []
  | i :: rest, s =>
    match exec i s with
    | .next t => t.out :: outputsOf rest t
    | .fault _ => []
    | .refused _ => []

/-- The bytes a sequence of output records sends on `tx` (R41). -/
def sentBytes (os : List Output) : List Byte := os.flatMap (fun o => o.tx)

/-- `CRC_BYTES b0, ..., bn` (R72). -/
def crcBytes (m : List Byte) : List Instr := m.map Instr.crcByte

/-- `CRC_BLOCK p` (R72); that `p` has 128 bytes is the feeder's duty (R92, R169). -/
def crcBlock (p : List Byte) : List Instr := [Instr.crcClr] ++ crcBytes p ++ [Instr.crcRd]

/-- `FP_FRAME b0, ..., b4` (R72). -/
def fpFrame (b0 b1 b2 b3 b4 : Byte) : List Instr :=
  [.fpByte b0, .fpByte b1, .fpByte b2, .fpByte b3, .fpByte b4]

/-- The eight `CRC_BIT` operations of a byte, bit 7 first (R90). -/
def crcBitsOf (b : Byte) : List Instr :=
  [7, 6, 5, 4, 3, 2, 1, 0].map (fun i => Instr.crcBit (b.getLsbD i))

/-- The CRC register after the bytes `m`, started at `c` (R87). -/
def crcFrom (c : CrcWord) (m : List Byte) : CrcWord := m.foldl crcByte c

/-- `crc_of(m)` (R87): `crc_byte` folded over `m` from `0x0000`. -/
def crcOf (m : List Byte) : CrcWord := crcFrom Config.crcInit m

/-- One round of the exclusive-or form of `crc_byte` (R87). -/
def crcShift (c : CrcWord) : CrcWord :=
  if c.getLsbD 15 then (c <<< 1) ^^^ Config.crcPoly else c <<< 1

/-- The equal formulation of `crc_byte` (R87): the byte into the high half, then eight rounds. -/
def crcByteXor (c : CrcWord) (b : Byte) : CrcWord :=
  let high : CrcWord := b ++ 0#8
  [0, 1, 2, 3, 4, 5, 6, 7].foldl (fun r _ => crcShift r) (c ^^^ high)

/-- One round of the augmented register (R95): the message bit enters at bit 0. -/
def augmentedBit (c : CrcWord) (d : Bool) : CrcWord :=
  if c.getLsbD 15 then ((c <<< 1) ||| BitVec.ofNat 16 d.toNat) ^^^ Config.crcPoly
  else (c <<< 1) ||| BitVec.ofNat 16 d.toNat

/-- The bits of a message, each byte's bit 7 first (R44, R45). -/
def messageBits (m : List Byte) : List Bool :=
  m.flatMap (fun b => [7, 6, 5, 4, 3, 2, 1, 0].map (fun i => b.getLsbD i))

/-- The augmented form of `crc_of` (R95): the message bits, then 16 zero bits, from `0x0000`. -/
def crcAugmented (m : List Byte) : CrcWord :=
  (messageBits m ++ List.replicate 16 false).foldl augmentedBit 0x0000#16

/-- The Block of sequence number `seq` and payload `p` (R69):
`[0x01, seq, ~seq, payload, crc_hi, crc_lo]`. -/
def blockBytes (seq : Byte) (p : List Byte) : List Byte :=
  [0x01#8, seq, ~~~seq] ++ p ++ [crcHi (crcOf p), crcLo (crcOf p)]

/-- Zero padding on the right to the payload length (R70). -/
def padPayload (chunk : List Byte) : List Byte :=
  chunk ++ List.replicate (Config.blockPayloadLen - chunk.length) 0#8

/-- `bpm_doc(t) = 1000000 / t` (R129), for the consumer; never evaluated for 0. DESIGN CHOICE
(log 15): an exact fraction, since the source states no rounding (N15). -/
def bpmDoc (t : TempoWord) : Option Rat :=
  if t = 0#24 then none else some (1000000 / (t.toNat : Rat))

end Sys2Proof.Machine
end

