-- ==== Sys2Proof/Safety.lean ====
section
/-! DEFINITION. What the spec promises of every reachable state and of every output record
(spec/10_state.md R30, R32, R34), and what a run that goes on is. -/

namespace Sys2Proof.Machine

/-- The outcome is a next state: the block neither stops nor is refused. -/
def Completes (o : Host.Outcome State Fault Refusal) : Prop := ∃ t, o = .next t

/-- `cnt != 0` implies `fp_state = RUN` (R34). -/
def CntOnlyInRun (s : State) : Prop := s.cnt ≠ 0 → s.fpState = .run

/-- `FAILED` only under `ERR_POLICY = TERMINATE` (R34). -/
def FailedOnlyUnderTerminate (s : State) : Prop :=
  s.fpState = .failed → s.params.errPolicy = .terminate

/-- The relations between the strobes (R32). -/
def StrobesRelated (o : Output) : Prop :=
  (o.evValid = true → o.frameValid = true) ∧
  (o.rejValid = true → o.frameValid = true) ∧
  ¬ (o.evValid = true ∧ o.rejValid = true) ∧
  ((o.frameValid = true ∧ o.evValid = false ∧ o.rejValid = false) ↔ o.evKind = some .nop) ∧
  ¬ (o.frameValid = true ∧ o.errValid = true) ∧
  ¬ (o.frameValid = true ∧ o.drop = true) ∧
  ¬ (o.frameValid = true ∧ o.badOp = true) ∧
  ¬ (o.errValid = true ∧ o.drop = true) ∧
  ¬ (o.errValid = true ∧ o.badOp = true) ∧
  ¬ (o.drop = true ∧ o.badOp = true) ∧
  (o.tx ≠ [] → o.frameValid = false ∧ o.errValid = false ∧ o.drop = false ∧ o.badOp = false)

/-- A data field has a value exactly where the column "valid when" of R30 says so. -/
def DataUnderStrobes (o : Output) : Prop :=
  o.rejReason.isSome = o.rejValid ∧
  o.errCause.isSome = o.errValid ∧
  o.fMarker.isSome = o.frameValid ∧
  o.fFlag.isSome = o.frameValid ∧
  o.fChan.isSome = o.frameValid ∧
  o.fB2.isSome = o.frameValid ∧
  o.fB3.isSome = o.frameValid ∧
  o.fB4.isSome = o.frameValid ∧
  o.markerOk.isSome = o.frameValid ∧
  o.evKind.isSome = o.frameValid ∧
  o.key.isSome = (o.evKind == some .key) ∧
  o.velocity.isSome = (o.evKind == some .key) ∧
  o.noteOn.isSome = (o.evKind == some .key) ∧
  o.tempo.isSome = (o.evKind == some .tempo) ∧
  o.paramId.isSome = (o.evKind == some .param) ∧
  o.slot.isSome = (o.evKind == some .param) ∧
  o.value.isSome = (o.evKind == some .param) ∧
  o.unkFlag.isSome = (o.evKind == some .unknown)

/-- The record's decoded fields are the views R30 says they are. -/
def ViewsAgree (o : Output) : Prop :=
  (∀ k, o.key = some k → o.fB3 = some k) ∧
  (∀ v, o.velocity = some v → o.fB4 = some v ∧ o.noteOn = some (v != 0#8)) ∧
  (∀ p, o.paramId = some p → p.toNat ≤ 7) ∧
  (∀ f, o.unkFlag = some f → o.fFlag = some f)

/-- A record that a step may yield. -/
def Output.WellFormed (o : Output) : Prop := StrobesRelated o ∧ DataUnderStrobes o ∧ ViewsAgree o

/-- The invariant of the block (R34), with its output record. -/
def Inv (s : State) : Prop :=
  CntOnlyInRun s ∧ FailedOnlyUnderTerminate s ∧ Output.WellFormed s.out

/-- The live part of the buffer is `buf[0..cnt-1]`, the partial frame (10_state.md R28): two states
agree on it and on everything else but stale bytes. -/
def AgreeButStale (s t : State) : Prop :=
  s.crc = t.crc ∧ s.cnt = t.cnt ∧ s.fpState = t.fpState ∧ s.out = t.out ∧ s.params = t.params ∧
  s.pending = t.pending ∧ s.tick = t.tick ∧
  ∀ i : Fin 5, i < s.cnt → s.buf[i] = t.buf[i]

end Sys2Proof.Machine
end

