-- ==== Sys2Proof/Certificates/Slice0/Obligations.lean ====
section
/-! DEFINITION. The statements about this model, and the few words they are said in. Each statement's
docstring says which sentence of spec/ it formalises and where it rests on a choice the spec marks as
its own (`[decision: ...]`, `[derived: ...]`) or on a log entry of the model. -/

namespace Sys2Proof.Claims

open Sys2Proof.Machine

/-- The record of a completed frame before its decoded view, written out from the table of
10_state.md R30: `frame_valid`, the raw fields, `marker_ok` (43_frame_decode.md R128). -/
def rawRecord (p : Params) (marker : Byte) (flag chan : Nibble) (b2 b3 b4 : Byte) : Output :=
  { frameValid := true
    fMarker := some marker
    fFlag := some flag
    fChan := some chan
    fB2 := some b2
    fB3 := some b3
    fB4 := some b4
    markerOk := some (match p.markerExpect with
      | none => true
      | some m => decide (marker = m)) }

/-- `s` after the step that completes the frame of these five bytes: `buf` holds them, `cnt` is 0,
`fp_state` is `fp`, the record is `o`; all else is as it was. -/
def completed (s : State) (byte0 byte1 byte2 byte3 byte4 : Byte) (fp : FpState) (o : Output) : State :=
  { s with buf := #v[byte0, byte1, byte2, byte3, byte4], cnt := 0, fpState := fp, out := o }

/-- The frame word the fifth byte `b` completes (42_frame_parser.md R103). -/
def collectedWord (s : State) (b : Byte) : FrameWord :=
  s.buf[0] ++ s.buf[1] ++ s.buf[2] ++ s.buf[3] ++ b

/-- The instruction of format F that a frame word stands for. -/
def frameInstr (F : FrameWord) : Instr := decodeFrame (frameOfWord F)

/-- What a frame word decodes to (43_frame_decode.md R115). -/
def decodeWord (F : FrameWord) : DecodeResult := frameDecode (frameOfWord F)

/-- The table of 42_frame_parser.md R105: `fp_state` after an operation of format C. -/
def tableFpState (s : State) : Instr → FpState
  | .fpStart => .run
  | .fpStop => .idle
  | .fpByte _ =>
    if s.fpState = .run ∧ s.cnt = 4 ∧ highNibble s.buf[1] = 2#4 then .ended else s.fpState
  | .fpAbort _ =>
    if s.fpState = .run then
      (match s.params.errPolicy with
        | .terminate => .failed
        | .retry => .run)
    else s.fpState
  | _ => s.fpState

/-- The table of 42_frame_parser.md R105: `cnt` after an operation of format C. -/
def tableCnt (s : State) : Instr → Nat
  | .fpStart => 0
  | .fpStop => 0
  | .fpByte _ =>
    if s.fpState = .run then (if s.cnt.val < 4 then s.cnt.val + 1 else 0) else s.cnt.val
  | .fpAbort _ => if s.fpState = .run then 0 else s.cnt.val
  | _ => s.cnt.val

/-- A state without the record of its last step. -/
def withoutOutput (s : State) : State := { s with out := {} }

/-- The byte-wise exclusive or of two messages. -/
def xorBytes (m n : List Byte) : List Byte := List.zipWith (fun a b => a ^^^ b) m n

/-- The two bytes `CRC_RD` sends for a register value. -/
def crcPair (c : CrcWord) : List Byte := [c.extractLsb' 8 8, c.extractLsb' 0 8]

end Sys2Proof.Claims

open Sys2Proof Sys2Proof.Machine Sys2Proof.Claims

/-! ### Reset and the step -/

/-- The values 10_state.md section 5 gives (the spec's own choice, D22): `crc`, `cnt`, `fp_state`,
and a reset step's record. The parameters stand at the defaults of 00_scope.md section 4. `buf` and
the model's own fields are not spoken of (log 1, 2, 12). -/
def Obligations.ResetStateHoldsResetValues : Prop :=
  State.reset.crc = 0x0000#16 ∧ State.reset.cnt = 0 ∧ State.reset.fpState = .idle ∧
  State.reset.out = {} ∧
  State.reset.params = { errPolicy := .terminate, markerExpect := none } ∧
  crcOut State.reset = 0x0000#16 ∧ fpStateOut State.reset = 0#2 ∧ fpCnt State.reset = 0#3

/-- 70_reset_and_hazards.md section 1 (the spec's own choice, D22): with `rst = 1` the step installs
the reset values, raises nothing and does not look at the command word. What `buf` holds afterwards
is not spoken of (log 3). -/
def Obligations.ResetInputInstallsResetValues : Prop :=
  ∀ (s : State) (w : CmdWord) (rest : List Input), s.pending = { rst := true, cmd := w } :: rest →
    (∃ t, step s = .next t ∧ t.crc = 0x0000#16 ∧ t.cnt = 0 ∧ t.fpState = .idle ∧ t.out = {} ∧
      t.params = s.params ∧ t.pending = rest ∧ t.tick = s.tick + 1) ∧
    ∀ w' : CmdWord, step { s with pending := { rst := true, cmd := w' } :: rest } = step s

/-- 40_common_ops.md section 1 (the spec's own choice, D1, D22): with `rst = 0` the step is exactly
the operation the command word decodes to, on the state with that input used up; where nothing is
pending it is the step of whatever the environment presents (log 1). -/
def Obligations.StepRunsDecodedCommand : Prop :=
  (∀ (s : State) (w : CmdWord) (rest : List Input), s.pending = { rst := false, cmd := w } :: rest →
    step s = exec (decodeCmd w) { s with pending := rest, tick := s.tick + 1 }) ∧
  (∀ s : State, s.pending = [] →
    step s = step { s with pending := [{ rst := Config.envRst s.tick, cmd := Config.envCmd s.tick }] })

/-- A word of the opcode table, placed where the step looks (log 7), runs: a command word as its
decoded operation, a frame word as the frame row it decodes to, in the step of its fifth byte. -/
def Obligations.PlacedTableWordRuns : Prop :=
  (∀ (s : State) (w : CmdWord),
    step (s.withFetchWord 16 w.toNat) = exec (decodeCmd w) { s with tick := s.tick + 1 }) ∧
  (∀ (s : State) (F : FrameWord),
    step (s.withFetchWord 40 F.toNat) =
      exec (frameInstr F)
        { s with
          fpState := .run
          cnt := 4
          buf := #v[F.extractLsb' 32 8, F.extractLsb' 24 8, F.extractLsb' 16 8, F.extractLsb' 8 8,
            s.buf[4]]
          tick := s.tick + 1 })

/-- Every step answers a next state (40_common_ops.md section 1, "total and deterministic"), whose
record is one the table of 10_state.md section 4 allows: the relations between the strobes hold (the
spec derives them) and a data field has a value exactly under its strobe (the spec's own choice,
D21). The parameters never change (00_scope.md section 6). -/
def Obligations.EveryStepAnswersAWellFormedRecord : Prop :=
  ∀ s : State, ∃ t, step s = .next t ∧ Output.WellFormed t.out ∧ t.params = s.params

/-- The invariant of 10_state.md section 6 (derived by the spec) is kept by every step, and every
step answers. -/
def Obligations.InvariantKeptByEveryStep : Prop :=
  ∀ s : State, Inv s → ∃ t, step s = .next t ∧ Inv t

/-- The state after reset meets the invariant. -/
def Obligations.ResetStateMeetsInvariant : Prop := Inv State.reset

/-! ### Encodings -/

/-- Words written out from the tables of 30_encoding.md decode to what they stand for. -/
def Obligations.TabulatedWordsDecode : Prop :=
  decodeTableWord 16 0x000 = some .idle ∧
  decodeTableWord 16 0x100 = some .crcClr ∧
  decodeTableWord 16 0x201 = some (.crcBit true) ∧
  decodeTableWord 16 0x331 = some (.crcByte 0x31#8) ∧
  decodeTableWord 16 0x5AB = some .reserved5 ∧
  decodeTableWord 16 0xA7F = some (.fpByte 0x7F#8) ∧
  decodeTableWord 16 0xB01 = some (.fpAbort .ioError) ∧
  decodeTableWord 40 0x0003003C7F = some (.fKey 0x00#8 3#4 0x00#8 60#8 127#8) ∧
  decodeTableWord 40 0x001C07A120 = some (.fTempo 0x00#8 12#4 500000#24) ∧
  decodeTableWord 40 0x004035FF77 = some (.fParam 0x00#8 0#4 3#3 5#4 0xFF#8 0x77#8)

/-- Decode and encode agree, with every operand at every value the encoding admits. -/
def Obligations.DecodeEncodeRoundTrip : Prop :=
  ∀ i : Instr, i.wellFormed = true → decode (encode i) = .ok i

/-- Every one of the 2^40 frame words stands for exactly one well-formed frame instruction, and no
bit of it is lost (30_encoding.md section 3: format F has no illegal encoding). -/
def Obligations.EveryFrameWordHasOneMeaning : Prop :=
  ∀ F : FrameWord, (frameInstr F).wellFormed = true ∧ (frameInstr F).isFrame = true ∧
    (∃ f : Frame, (frameInstr F).frame? = some f ∧ f.word = F) ∧
    ∀ i : Instr, i.wellFormed = true → (∃ f : Frame, i.frame? = some f ∧ f.word = F) →
      i = frameInstr F

/-- The first row of spec/opcode_table.json whose `match` and `mask` a word hits is the row of the
instruction it decodes to, for every command word and every frame word. -/
def Obligations.FirstMatchingTableRowIsDecoded : Prop :=
  (∀ w : CmdWord, (cmdTable.find? (fun r => r.hits w)).map (fun r => r.mnemonic) =
    some (decodeCmd w).mnemonic) ∧
  (∀ F : FrameWord, (frameTable.find? (fun r => r.hits F)).map (fun r => r.mnemonic) =
    some (frameInstr F).mnemonic)

/-- The data bits an operation does not use change nothing (30_encoding.md section 1, the spec's own
choice, D5): all of them but for `CRC_BYTE` and `FP_BYTE`, all but `data[0]` for `CRC_BIT` and
`FP_ABORT`. -/
def Obligations.UnusedDataBitsChangeNothing : Prop :=
  ∀ (op : Nibble) (d d' : Byte), op ≠ 0x3#4 → op ≠ 0xA#4 →
    (op = 0x2#4 ∨ op = 0xB#4 → d.getLsbD 0 = d'.getLsbD 0) →
    decodeCmd (op ++ d) = decodeCmd (op ++ d')

/-- The flag map of 30_encoding.md R65, row by row: the kind by its table row's mnemonic, and for the
unknown kinds the flag they carry. -/
def Obligations.FlagMapSelectsFrameKind : Prop :=
  ∀ F : FrameWord,
    (F.extractLsb' 28 4 = 0#4 → (frameInstr F).mnemonic = "F.KEY") ∧
    (F.extractLsb' 28 4 = 1#4 ∧ F.extractLsb' 0 24 ≠ 0#24 → (frameInstr F).mnemonic = "F.TEMPO") ∧
    (F.extractLsb' 28 4 = 1#4 ∧ F.extractLsb' 0 24 = 0#24 →
      (frameInstr F).mnemonic = "F.TEMPO_ZERO" ∧ decodeWord F = .rejectTempoZero) ∧
    (F.extractLsb' 28 4 = 2#4 → (frameInstr F).mnemonic = "F.END") ∧
    (F.extractLsb' 28 4 = 3#4 → (frameInstr F).mnemonic = "F.NOP") ∧
    (F.extractLsb' 28 4 = 4#4 ∧ F.getLsbD 23 = false → (frameInstr F).mnemonic = "F.PARAM") ∧
    (F.extractLsb' 28 4 = 4#4 ∧ F.getLsbD 23 = true →
      (frameInstr F).mnemonic = "F.PARAM_BAD_ID" ∧ decodeWord F = .event (.unknown 4#4)) ∧
    (F.extractLsb' 28 4 = 5#4 → (frameInstr F).mnemonic = "F.SKIP") ∧
    (6 ≤ (F.extractLsb' 28 4).toNat →
      (frameInstr F).mnemonic =
        (if (F.extractLsb' 28 4).toNat < 8 then "F.UNKNOWN_6_7" else "F.UNKNOWN_8_F") ∧
      decodeWord F = .event (.unknown (F.extractLsb' 28 4)))

/-- Two frames that agree on the bits their kind uses decode to the same result (43_frame_decode.md
section 3, derived by the spec): the marker never counts, the channel for Key alone. -/
def Obligations.DecodeReadsOnlyTheUsedBits : Prop :=
  ∀ f g : Frame, f.flag = g.flag →
    (f.flag = 0#4 → f.chan = g.chan ∧ f.b3 = g.b3 ∧ f.b4 = g.b4) →
    (f.flag = 1#4 → f.b2 = g.b2 ∧ f.b3 = g.b3 ∧ f.b4 = g.b4) →
    (f.flag = 4#4 → (f.b2.getLsbD 7 = true ∧ g.b2.getLsbD 7 = true) ∨ (f.b2 = g.b2 ∧ f.b3 = g.b3)) →
    frameDecode f = frameDecode g

/-! ### Unit CRCG -/

/-- `CRC_CLR` (41_crc.md section 3; an operation by the spec's own choice, D8): the register is 0 and
nothing else changes, whatever the ignored data. -/
def Obligations.CrcClrClearsTheRegister : Prop :=
  (∀ d : Byte, decodeCmd (0x1#4 ++ d) = .crcClr) ∧
  (∀ s : State, exec .crcClr s = .next { s with crc := 0x0000#16, out := {} })

/-- `CRC_BIT d` (41_crc.md section 3; an operation by the spec's own choice, D6): one bit step, with
the corner cases the section names. -/
def Obligations.CrcBitAbsorbsOneBit : Prop :=
  (∀ d : Byte, decodeCmd (0x2#4 ++ d) = .crcBit (d.getLsbD 0)) ∧
  (∀ (s : State) (d : Bool), exec (.crcBit d) s = .next { s with
    crc := (if s.crc.getLsbD 15 != d then (s.crc <<< 1) ^^^ 0x1021#16 else s.crc <<< 1), out := {} })

/-- `CRC_BYTE b` (41_crc.md section 3): eight bit steps in one, nothing else changes. -/
def Obligations.CrcByteAbsorbsOneByte : Prop :=
  (∀ b : Byte, decodeCmd (0x3#4 ++ b) = .crcByte b) ∧
  (∀ (s : State) (b : Byte), exec (.crcByte b) s = .next { s with
    crc := crcBit (crcBit (crcBit (crcBit (crcBit (crcBit (crcBit (crcBit s.crc (b.getLsbD 7))
      (b.getLsbD 6)) (b.getLsbD 5)) (b.getLsbD 4)) (b.getLsbD 3)) (b.getLsbD 2)) (b.getLsbD 1))
      (b.getLsbD 0)
    out := {} })

/-- `CRC_RD` (41_crc.md section 3): the register goes out high byte first. That it keeps its value,
so that a second read sends the same bytes, is the spec's own choice (D7). -/
def Obligations.CrcRdSendsHighByteFirst : Prop :=
  (∀ d : Byte, decodeCmd (0x4#4 ++ d) = .crcRd) ∧
  (∀ s : State, exec .crcRd s =
    .next { s with out := { tx := [s.crc.extractLsb' 8 8, s.crc.extractLsb' 0 8] } }) ∧
  (∀ s : State, sentBytes (outputsOf [.crcRd, .crcRd] s) = crcPair s.crc ++ crcPair s.crc)

/-- `crc_bit`, bit by bit (41_crc.md section 2; the recurrence is the spec's from general knowledge,
log 8): a 16-stage shift register with taps at 0, 5 and 12. -/
def Obligations.CrcBitIsATappedShiftRegister : Prop :=
  ∀ (c : CrcWord) (d : Bool),
    (crcBit c d).getLsbD 0 = (c.getLsbD 15 != d) ∧
    (crcBit c d).getLsbD 5 = (c.getLsbD 4 != (c.getLsbD 15 != d)) ∧
    (crcBit c d).getLsbD 12 = (c.getLsbD 11 != (c.getLsbD 15 != d)) ∧
    ∀ i : Nat, 1 ≤ i → i ≤ 15 → i ≠ 5 → i ≠ 12 → (crcBit c d).getLsbD i = c.getLsbD (i - 1)

/-- The two formulations of `crc_byte` in 41_crc.md section 2 agree (derived by the spec). -/
def Obligations.CrcByteEqualsItsXorForm : Prop :=
  ∀ (c : CrcWord) (b : Byte), crcByte c b = crcByteXor c b

/-- One `CRC_BYTE b` equals the eight operations `CRC_BIT b[7]`, ..., `CRC_BIT b[0]` (41_crc.md
section 3, derived by the spec). -/
def Obligations.CrcByteEqualsEightCrcBits : Prop :=
  ∀ (s : State) (b : Byte), execAll (crcBitsOf b) s = exec (.crcByte b) s

/-- Linearity (41_crc.md section 5, derived by the spec), of a bit step and of whole messages of
equal length. -/
def Obligations.CrcIsLinear : Prop :=
  (∀ (a b : CrcWord) (d e : Bool),
    crcBit (a ^^^ b) (d != e) = crcBit a d ^^^ crcBit b e) ∧
  (∀ m n : List Byte, m.length = n.length → crcOf (xorBytes m n) = crcOf m ^^^ crcOf n)

/-- Zero stays zero and leading zero bytes are invisible (41_crc.md section 5, derived by the
spec). -/
def Obligations.LeadingZeroBytesAreInvisible : Prop :=
  ∀ (k : Nat) (m : List Byte),
    crcOf (List.replicate k 0#8 ++ m) = crcOf m ∧ crcOf (List.replicate k 0#8) = 0x0000#16

/-- Self-check (41_crc.md section 5, derived by the spec): a message followed by its own CRC, high
byte first, has the CRC 0. -/
def Obligations.MessageWithItsCrcHasCrcZero : Prop :=
  ∀ m : List Byte, crcOf (m ++ crcPair (crcOf m)) = 0x0000#16

/-- The augmented form (41_crc.md section 5, derived by the spec): shifting the message in at bit 0
and then 16 zero bits gives the same register. -/
def Obligations.AugmentedFormAgrees : Prop := ∀ m : List Byte, crcAugmented m = crcOf m

/-- `CRC_BLOCK p` (41_crc.md section 4; no length is checked by the spec's own choice, D8): from any
state the sequence clear, bytes, read ends with the CRC of `p` in the register and sends exactly its
two bytes; the parser is untouched. -/
def Obligations.CrcBlockSendsTheCrcOfItsPayload : Prop :=
  ∀ (s : State) (p : List Byte),
    execAll (crcBlock p) s = .next { s with crc := crcOf p, out := { tx := crcPair (crcOf p) } } ∧
    sentBytes (outputsOf (crcBlock p) s) = crcPair (crcOf p)

/-- One CRC per Block, recomputed each time (41_crc.md R93): over any sequence of payloads, each
Block sends the CRC of its own payload alone, whatever ran before. -/
def Obligations.EachBlockCarriesItsOwnCrc : Prop :=
  ∀ (s : State) (ps : List (List Byte)),
    sentBytes (outputsOf (ps.flatMap crcBlock) s) = ps.flatMap (fun p => crcPair (crcOf p))

/-! ### Common operations -/

/-- `IDLE` (40_common_ops.md section 2; an operation by the spec's own choice, D3): nothing changes,
nothing is raised. -/
def Obligations.IdleChangesNothing : Prop :=
  (∀ d : Byte, decodeCmd (0x0#4 ++ d) = .idle) ∧
  (∀ s : State, exec .idle s = .next { s with out := {} })

/-- Reserved opcodes (40_common_ops.md section 3; the spec's own choice, D4, log 9): each of the
seven raises `BadOp` and changes no state. -/
def Obligations.ReservedOpcodesOnlyRaiseBadOp : Prop :=
  (∀ s : State, exec .reserved5 s = .next { s with out := { badOp := true } }) ∧
  (∀ (s : State) (o : BitVec 1), exec (.reserved67 o) s = .next { s with out := { badOp := true } }) ∧
  (∀ (s : State) (o : BitVec 2), exec (.reservedCF o) s = .next { s with out := { badOp := true } }) ∧
  (∀ (s : State) (op : Nibble) (d : Byte), op ∈ [0x5#4, 0x6#4, 0x7#4, 0xC#4, 0xD#4, 0xE#4, 0xF#4] →
    exec (decodeCmd (op ++ d)) s = .next { s with out := { badOp := true } })

/-! ### Unit FFP, collecting frames -/

/-- `FP_START` (42_frame_parser.md section 2; the spec's own choice, D10): accepted in every state,
framing restarts at `byte[0]`. -/
def Obligations.FpStartRestartsFraming : Prop :=
  (∀ d : Byte, decodeCmd (0x8#4 ++ d) = .fpStart) ∧
  (∀ s : State, exec .fpStart s = .next { s with fpState := .run, cnt := 0, out := {} })

/-- `FP_STOP` (42_frame_parser.md section 2; the spec's own choice, D11): accepted in every state,
silently. -/
def Obligations.FpStopDisablesTheParser : Prop :=
  (∀ d : Byte, decodeCmd (0x9#4 ++ d) = .fpStop) ∧
  (∀ s : State, exec .fpStop s = .next { s with fpState := .idle, cnt := 0, out := {} })

/-- `FP_BYTE` outside `RUN` (42_frame_parser.md section 2; the strobe is the spec's own choice, D12):
the byte is discarded, `drop` is raised, nothing changes. -/
def Obligations.FpByteOutsideRunIsDropped : Prop :=
  ∀ (s : State) (b : Byte), s.fpState ≠ .run →
    exec (.fpByte b) s = .next { s with out := { drop := true } }

/-- `FP_BYTE` for the first four bytes of a frame (42_frame_parser.md section 2): stored at index
`cnt`, which advances by one; nothing is raised. -/
def Obligations.FpByteStoresAtCnt : Prop :=
  ∀ (s : State) (b : Byte), s.fpState = .run → s.cnt.val < 4 →
    ∃ t, exec (.fpByte b) s = .next t ∧ t.cnt.val = s.cnt.val + 1 ∧ t.out = {} ∧
      t.buf[s.cnt] = b ∧ (∀ i : Fin 5, i ≠ s.cnt → t.buf[i] = s.buf[i]) ∧
      t.crc = s.crc ∧ t.fpState = .run ∧ t.params = s.params ∧ t.pending = s.pending ∧
      t.tick = s.tick

/-- The fifth `FP_BYTE` (42_frame_parser.md section 2) runs the frame its five bytes spell, the
incoming byte as `byte[4]`. -/
def Obligations.FifthFpByteRunsTheCollectedFrame : Prop :=
  ∀ (s : State) (b : Byte), s.fpState = .run → s.cnt = 4 →
    exec (.fpByte b) s = exec (frameInstr (collectedWord s b)) s

/-- `FP_ABORT` (42_frame_parser.md section 2; the discarding and the ignoring are the spec's own
choices, D13, D14): in `RUN` the failure is reported with its cause and the partial frame discarded,
`ERR_POLICY` says whether the session ends; elsewhere nothing happens. -/
def Obligations.FpAbortFollowsErrPolicy : Prop :=
  (∀ d : Byte, decodeCmd (0xB#4 ++ d) = .fpAbort (if d.getLsbD 0 then .ioError else .timeout)) ∧
  (∀ (s : State) (cause : ErrCause), s.fpState = .run → s.params.errPolicy = .terminate →
    exec (.fpAbort cause) s = .next { s with
      fpState := .failed, cnt := 0, out := { errValid := true, errCause := some cause } }) ∧
  (∀ (s : State) (cause : ErrCause), s.fpState = .run → s.params.errPolicy = .retry →
    exec (.fpAbort cause) s = .next { s with
      cnt := 0, out := { errValid := true, errCause := some cause } }) ∧
  (∀ (s : State) (cause : ErrCause), s.fpState ≠ .run →
    exec (.fpAbort cause) s = .next { s with out := {} })

/-- Every transition of `fp_state` and `cnt` is the one of the table of 42_frame_parser.md section 3
(derived by the spec); the operations it does not list leave both alone. -/
def Obligations.ParserFollowsItsTransitionTable : Prop :=
  ∀ (i : Instr) (s : State), i.isFrame = false →
    ∃ t, exec i s = .next t ∧ t.fpState = tableFpState s i ∧ t.cnt.val = tableCnt s i

/-- `ENDED` and `FAILED` are sticky (10_state.md section 3, derived by the spec): no `FP_BYTE` and no
`FP_ABORT` leaves them. -/
def Obligations.EndedAndFailedAreSticky : Prop :=
  ∀ s : State, s.fpState = .ended ∨ s.fpState = .failed →
    (∀ b : Byte, ∃ t, exec (.fpByte b) s = .next t ∧ t.fpState = s.fpState ∧ t.cnt = s.cnt) ∧
    (∀ c : ErrCause, ∃ t, exec (.fpAbort c) s = .next t ∧ t.fpState = s.fpState ∧ t.cnt = s.cnt)

/-- `ENDED` is reached only by the step that completes a frame with flag 2 (10_state.md section 6,
derived by the spec). -/
def Obligations.EndedIsReachedOnlyByAnEndFrame : Prop :=
  ∀ s t : State, step s = .next t → t.fpState = .ended → s.fpState ≠ .ended →
    s.fpState = .run ∧ s.cnt = 4 ∧ (nextInput s).rst = false ∧
    (∃ b : Byte, decodeCmd (nextInput s).cmd = .fpByte b) ∧ s.buf[1].extractLsb' 4 4 = 2#4

/-- Frame byte order (20_memory.md R46): from a frame boundary the first byte to arrive is in
`buf[0]` and is `byte[0]` of the decoded frame, ..., the fifth in `buf[4]`. -/
def Obligations.FrameBytesStandInOrderOfArrival : Prop :=
  ∀ (s : State) (b0 b1 b2 b3 b4 : Byte), s.fpState = .run → s.cnt = 0 →
    ∃ t, execAll (fpFrame b0 b1 b2 b3 b4) s = .next t ∧ t.buf = #v[b0, b1, b2, b3, b4] ∧
      t.out.fMarker = some b0 ∧ t.out.fFlag = some (b1.extractLsb' 4 4) ∧
      t.out.fChan = some (b1.extractLsb' 0 4) ∧ t.out.fB2 = some b2 ∧ t.out.fB3 = some b3 ∧
      t.out.fB4 = some b4

/-- `FP_FRAME` is its frame's row (30_encoding.md section 6, 42_frame_parser.md section 4; log 6):
presented from a frame boundary, five `FP_BYTE` have together exactly the effect of the frame
instruction their word stands for, in every `fp_state`. -/
def Obligations.FiveFpBytesAreOneFrame : Prop :=
  ∀ (s : State) (b0 b1 b2 b3 b4 : Byte), (s.fpState = .run → s.cnt = 0) →
    execAll (fpFrame b0 b1 b2 b3 b4) s = exec (frameInstr (b0 ++ b1 ++ b2 ++ b3 ++ b4)) s

/-- The frame rows outside `RUN` (42_frame_parser.md section 2; log 6): no frame is processed, its
bytes are dropped. -/
def Obligations.FramesOutsideRunAreDropped : Prop :=
  ∀ (i : Instr) (s : State), i.isFrame = true → s.fpState ≠ .run →
    exec i s = .next { s with out := { drop := true } }

/-! ### Unit FFP, the frame kinds -/

/-- Key (43_frame_decode.md section 2): encoding, event, outputs; a note-off is still a forwarded
event and `byte[2]` is not decoded. That a frame row is executed as the completion of its frame,
whatever `cnt`, is the model's reading (log 6). -/
def Obligations.KeyFrameForwardsAKeyEvent : Prop :=
  ∀ (marker : Byte) (chan : Nibble) (b2 key velocity : Byte),
    frameInstr (marker ++ 0#4 ++ chan ++ b2 ++ key ++ velocity) = .fKey marker chan b2 key velocity ∧
    decodeWord (marker ++ 0#4 ++ chan ++ b2 ++ key ++ velocity) = .event (.key chan key velocity) ∧
    ∀ s : State, s.fpState = .run →
      exec (.fKey marker chan b2 key velocity) s =
        .next (completed s marker (0#4 ++ chan) b2 key velocity .run
          { rawRecord s.params marker 0#4 chan b2 key velocity with
            evValid := true, evKind := some .key, key := some key, velocity := some velocity,
            noteOn := some (decide (velocity ≠ 0#8)) })

/-- Tempo (43_frame_decode.md section 2; that no division is done is the spec's own choice, D27): the
24-bit big-endian value of bytes 2 to 4, not 0. That a frame row is executed as the completion of its
frame, whatever `cnt`, is the model's reading (log 6). -/
def Obligations.TempoFrameForwardsItsValue : Prop :=
  ∀ (marker : Byte) (chan : Nibble) (b2 b3 b4 : Byte) (tempo : TempoWord), tempo = b2 ++ b3 ++ b4 →
    tempo ≠ 0#24 →
    frameInstr (marker ++ 1#4 ++ chan ++ b2 ++ b3 ++ b4) = .fTempo marker chan tempo ∧
    decodeWord (marker ++ 1#4 ++ chan ++ b2 ++ b3 ++ b4) = .event (.tempo tempo) ∧
    ∀ s : State, s.fpState = .run →
      exec (.fTempo marker chan tempo) s =
        .next (completed s marker (1#4 ++ chan) b2 b3 b4 .run
          { rawRecord s.params marker 1#4 chan b2 b3 b4 with
            evValid := true, evKind := some .tempo, tempo := some tempo })

/-- Tempo with value 0 (43_frame_decode.md section 2; what a rejection is made of is the spec's own
choice, D18): rejected by `TempoZero`, no event, the parser stays in `RUN`. That a frame row is
executed as the completion of its frame, whatever `cnt`, is the model's reading (log 6). -/
def Obligations.ZeroTempoFrameIsRejected : Prop :=
  ∀ (marker : Byte) (chan : Nibble),
    frameInstr (marker ++ 1#4 ++ chan ++ 0#8 ++ 0#8 ++ 0#8) = .fTempoZero marker chan ∧
    decodeWord (marker ++ 1#4 ++ chan ++ 0#8 ++ 0#8 ++ 0#8) = .rejectTempoZero ∧
    ∀ s : State, s.fpState = .run →
      exec (.fTempoZero marker chan) s =
        .next (completed s marker (1#4 ++ chan) 0#8 0#8 0#8 .run
          { rawRecord s.params marker 1#4 chan 0#8 0#8 0#8 with
            rejValid := true, rejReason := some .tempoZero, evKind := some .tempo,
            tempo := some 0#24 })

/-- End (43_frame_decode.md section 2): the event is forwarded and the parser stops in the same step;
every later `FP_BYTE` is dropped until `FP_START`. That a frame row is executed as the completion of
its frame, whatever `cnt`, is the model's reading (log 6). -/
def Obligations.EndFrameEndsTheSession : Prop :=
  ∀ (marker : Byte) (chan : Nibble) (b2 b3 b4 : Byte),
    frameInstr (marker ++ 2#4 ++ chan ++ b2 ++ b3 ++ b4) = .fEnd marker chan b2 b3 b4 ∧
    decodeWord (marker ++ 2#4 ++ chan ++ b2 ++ b3 ++ b4) = .event .endOfSequence ∧
    (∀ s : State, s.fpState = .run →
      exec (.fEnd marker chan b2 b3 b4) s =
        .next (completed s marker (2#4 ++ chan) b2 b3 b4 .ended
          { rawRecord s.params marker 2#4 chan b2 b3 b4 with
            evValid := true, evKind := some .endOfSequence })) ∧
    (∀ (s : State) (later : List Instr) (b : Byte), s.fpState = .run → Instr.fpStart ∉ later →
      ∃ t u, execAll (.fEnd marker chan b2 b3 b4 :: later) s = .next t ∧
        exec (.fpByte b) t = .next u ∧ u = { t with out := { drop := true } })

/-- Nop (43_frame_decode.md section 2; shown and not forwarded by the spec's own choice, D17). That a
frame row is executed as the completion of its frame, whatever `cnt`, is the model's reading
(log 6). -/
def Obligations.NopFrameIsShownNotForwarded : Prop :=
  ∀ (marker : Byte) (chan : Nibble) (b2 b3 b4 : Byte),
    frameInstr (marker ++ 3#4 ++ chan ++ b2 ++ b3 ++ b4) = .fNop marker chan b2 b3 b4 ∧
    decodeWord (marker ++ 3#4 ++ chan ++ b2 ++ b3 ++ b4) = .event .nop ∧
    ∀ s : State, s.fpState = .run →
      exec (.fNop marker chan b2 b3 b4) s =
        .next (completed s marker (3#4 ++ chan) b2 b3 b4 .run
          { rawRecord s.params marker 3#4 chan b2 b3 b4 with evKind := some .nop })

/-- Param with sub-id 0 to 7 (43_frame_decode.md section 2): the slot is the low nibble of `byte[2]`,
the sub-id its high nibble; `chan` and `b4` are not decoded. That a frame row is executed as the
completion of its frame, whatever `cnt`, is the model's reading (log 6). -/
def Obligations.ParamFrameForwardsAParamEvent : Prop :=
  ∀ (marker : Byte) (chan : Nibble) (paramId : BitVec 3) (slot : Nibble) (value b4 : Byte),
    frameInstr (marker ++ 4#4 ++ chan ++ (0#1 ++ paramId ++ slot) ++ value ++ b4) =
      .fParam marker chan paramId slot value b4 ∧
    decodeWord (marker ++ 4#4 ++ chan ++ (0#1 ++ paramId ++ slot) ++ value ++ b4) =
      .event (.param slot (0#1 ++ paramId) value) ∧
    ∀ s : State, s.fpState = .run →
      exec (.fParam marker chan paramId slot value b4) s =
        .next (completed s marker (4#4 ++ chan) (0#1 ++ paramId ++ slot) value b4 .run
          { rawRecord s.params marker 4#4 chan (0#1 ++ paramId ++ slot) value b4 with
            evValid := true, evKind := some .param, paramId := some (0#1 ++ paramId),
            slot := some slot, value := some value })

/-- Param with sub-id 8 to 15 (43_frame_decode.md section 2; that it carries flag 4 is the spec's own
choice, D19): an unknown event. That a frame row is executed as the completion of its frame, whatever
`cnt`, is the model's reading (log 6). -/
def Obligations.ParamFrameWithBadIdIsUnknown : Prop :=
  ∀ (marker : Byte) (chan : Nibble) (low : BitVec 7) (b3 b4 : Byte),
    frameInstr (marker ++ 4#4 ++ chan ++ (1#1 ++ low) ++ b3 ++ b4) =
      .fParamBadId marker chan low b3 b4 ∧
    decodeWord (marker ++ 4#4 ++ chan ++ (1#1 ++ low) ++ b3 ++ b4) = .event (.unknown 4#4) ∧
    ∀ s : State, s.fpState = .run →
      exec (.fParamBadId marker chan low b3 b4) s =
        .next (completed s marker (4#4 ++ chan) (1#1 ++ low) b3 b4 .run
          { rawRecord s.params marker 4#4 chan (1#1 ++ low) b3 b4 with
            evValid := true, evKind := some .unknown, unkFlag := some 4#4 })

/-- SkipTrack (43_frame_decode.md section 2). That a frame row is executed as the completion of its
frame, whatever `cnt`, is the model's reading (log 6). -/
def Obligations.SkipFrameForwardsASkipEvent : Prop :=
  ∀ (marker : Byte) (chan : Nibble) (b2 b3 b4 : Byte),
    frameInstr (marker ++ 5#4 ++ chan ++ b2 ++ b3 ++ b4) = .fSkip marker chan b2 b3 b4 ∧
    decodeWord (marker ++ 5#4 ++ chan ++ b2 ++ b3 ++ b4) = .event .skipTrack ∧
    ∀ s : State, s.fpState = .run →
      exec (.fSkip marker chan b2 b3 b4) s =
        .next (completed s marker (5#4 ++ chan) b2 b3 b4 .run
          { rawRecord s.params marker 5#4 chan b2 b3 b4 with
            evValid := true, evKind := some .skipTrack })

/-- Unknown (43_frame_decode.md section 2), both rows: flags 6 and 7 (`011f`) and flags 8 to 15
(`1fff`) are events that carry their flag, and the parser keeps running. That a frame row is executed
as the completion of its frame, whatever `cnt`, is the model's reading (log 6). -/
def Obligations.UnknownFramesForwardTheirFlag : Prop :=
  ∀ (marker : Byte) (chan : Nibble) (b2 b3 b4 : Byte),
    (∀ f : BitVec 1,
      frameInstr (marker ++ (0b011#3 ++ f) ++ chan ++ b2 ++ b3 ++ b4) =
        .fUnknown67 marker f chan b2 b3 b4 ∧
      decodeWord (marker ++ (0b011#3 ++ f) ++ chan ++ b2 ++ b3 ++ b4) =
        .event (.unknown (0b011#3 ++ f)) ∧
      ∀ s : State, s.fpState = .run →
        exec (.fUnknown67 marker f chan b2 b3 b4) s =
          .next (completed s marker (0b011#3 ++ f ++ chan) b2 b3 b4 .run
            { rawRecord s.params marker (0b011#3 ++ f) chan b2 b3 b4 with
              evValid := true, evKind := some .unknown, unkFlag := some (0b011#3 ++ f) })) ∧
    (∀ f : BitVec 3,
      frameInstr (marker ++ (1#1 ++ f) ++ chan ++ b2 ++ b3 ++ b4) =
        .fUnknown8F marker f chan b2 b3 b4 ∧
      decodeWord (marker ++ (1#1 ++ f) ++ chan ++ b2 ++ b3 ++ b4) =
        .event (.unknown (1#1 ++ f)) ∧
      ∀ s : State, s.fpState = .run →
        exec (.fUnknown8F marker f chan b2 b3 b4) s =
          .next (completed s marker (1#1 ++ f ++ chan) b2 b3 b4 .run
            { rawRecord s.params marker (1#1 ++ f) chan b2 b3 b4 with
              evValid := true, evKind := some .unknown, unkFlag := some (1#1 ++ f) }))

/-! ### Unit FFP, what holds of every frame -/

/-- Raw unpacking (43_frame_decode.md R117): the step of the fifth byte presents the six raw fields,
whatever the flag, and each decoded field it presents is a view of the same bits. -/
def Obligations.CompletedFramePresentsItsRawFields : Prop :=
  ∀ (s : State) (b : Byte), s.fpState = .run → s.cnt = 4 →
    ∃ t, exec (.fpByte b) s = .next t ∧ t.out.frameValid = true ∧
      t.out.fMarker = some ((collectedWord s b).extractLsb' 32 8) ∧
      t.out.fFlag = some ((collectedWord s b).extractLsb' 28 4) ∧
      t.out.fChan = some ((collectedWord s b).extractLsb' 24 4) ∧
      t.out.fB2 = some ((collectedWord s b).extractLsb' 16 8) ∧
      t.out.fB3 = some ((collectedWord s b).extractLsb' 8 8) ∧
      t.out.fB4 = some ((collectedWord s b).extractLsb' 0 8) ∧
      (∀ k, t.out.key = some k → k = (collectedWord s b).extractLsb' 8 8) ∧
      (∀ v, t.out.velocity = some v → v = (collectedWord s b).extractLsb' 0 8) ∧
      (∀ x, t.out.tempo = some x → x = (collectedWord s b).extractLsb' 0 24) ∧
      (∀ p, t.out.paramId = some p → p = (collectedWord s b).extractLsb' 20 4) ∧
      (∀ p, t.out.slot = some p → p = (collectedWord s b).extractLsb' 16 4) ∧
      (∀ v, t.out.value = some v → v = (collectedWord s b).extractLsb' 8 8) ∧
      (∀ f, t.out.unkFlag = some f → f = (collectedWord s b).extractLsb' 28 4)

/-- Forwarding (43_frame_decode.md R127): the very step of the fifth byte presents `decode(F)`, with
`ev_valid` exactly for an event other than `NopEvent` and `rej_valid` exactly for the rejection;
there is no queue: no later operation's answer depends on the record, so an event not taken in its
step is gone. -/
def Obligations.CompletedFrameIsForwardedAtOnce : Prop :=
  ∀ (s : State) (b : Byte), s.fpState = .run → s.cnt = 4 →
    ∃ t, exec (.fpByte b) s = .next t ∧ t.out.frameValid = true ∧
      Output.presents t.out = some (decodeWord (collectedWord s b)) ∧
      (t.out.evValid = true ↔
        ∃ e, decodeWord (collectedWord s b) = .event e ∧ e ≠ PlaybackEvent.nop) ∧
      (t.out.rejValid = true ↔ decodeWord (collectedWord s b) = .rejectTempoZero) ∧
      ∀ (i : Instr) (o : Output), exec i { t with out := o } = exec i t

/-- `marker_ok` (43_frame_decode.md section 3; the spec's own choice, D20): it compares the marker
with `MARKER_EXPECT`, and the marker changes nothing else: none of the outputs but its own view
`f_marker`, nothing of the state but the stored byte `buf[0]`. That a frame row is executed as the
completion of its frame, whatever `cnt`, is the model's reading (log 6). -/
def Obligations.MarkerChangesOnlyMarkerOk : Prop :=
  ∀ (s : State) (f : Frame) (m : Byte), s.fpState = .run →
    ∃ t u, exec (decodeFrame f) s = .next t ∧ exec (decodeFrame { f with marker := m }) s = .next u ∧
      (s.params.markerExpect = none → t.out.markerOk = some true) ∧
      (∀ x, s.params.markerExpect = some x → t.out.markerOk = some (decide (f.marker = x))) ∧
      { t.out with fMarker := none, markerOk := none } =
        { u.out with fMarker := none, markerOk := none } ∧
      withoutOutput t = { withoutOutput u with buf := u.buf.set 0 f.marker }

/-! ### Both units -/

/-- The frame of every instruction (20_memory.md section 5, 10_state.md section 6, derived by the
spec): the register is written by CRCG alone, the parser's state by FFP alone, and no instruction
touches the parameters or the inputs. -/
def Obligations.UnitsWriteOnlyTheirOwnState : Prop :=
  ∀ (i : Instr) (s : State), ∃ t, exec i s = .next t ∧
    (i.isCrcg = false → t.crc = s.crc) ∧
    (i.isFfp = false → t.buf = s.buf ∧ t.cnt = s.cnt ∧ t.fpState = s.fpState) ∧
    t.params = s.params ∧ t.pending = s.pending ∧ t.tick = s.tick

/-- Independence of the units (20_memory.md section 5, derived by the spec): swapping an operation of
CRCG with an operation of FFP changes neither the final state nor the two records. -/
def Obligations.UnitsCommute : Prop :=
  ∀ (i j : Instr) (s : State), i.isCrcg = true → j.isFfp = true →
    ∃ t u t' u', exec i s = .next t ∧ exec j t = .next u ∧
      exec j s = .next t' ∧ exec i t' = .next u' ∧
      withoutOutput u = withoutOutput u' ∧ t.out = u'.out ∧ u.out = t'.out

/-- Stale bytes are unobservable (10_state.md section 3, derived by the spec): two states that agree
on all but bytes of `buf` outside the partial frame answer with the same record and agree so again,
so no such byte ever reaches an output. -/
def Obligations.StaleBytesNeverReachAnOutput : Prop :=
  ∀ s s' : State, AgreeButStale s s' →
    ∃ t t', step s = .next t ∧ step s' = .next t' ∧ AgreeButStale t t'
end

