-- ==== Sys2Proof/Laws/Decode.lean ====
section
/-! SUPPORT. The bits of command words and frame words, field by field. -/

namespace Sys2Proof

/-! ### Concatenations, bit by bit, at the widths the encodings use -/

theorem getLsbD_cmd (op : BitVec 4) (data : BitVec 8) (k : Nat) :
    BitVec.getLsbD (w := 12) (op ++ data) k =
      if k < 8 then data.getLsbD k else op.getLsbD (k - 8) := BitVec.getLsbD_append

theorem getLsbD_nibbles (hi lo : BitVec 4) (k : Nat) :
    BitVec.getLsbD (w := 8) (hi ++ lo) k = if k < 4 then lo.getLsbD k else hi.getLsbD (k - 4) :=
  BitVec.getLsbD_append

theorem getLsbD_tempo (b2 b3 b4 : BitVec 8) (k : Nat) :
    BitVec.getLsbD (w := 24) (b2 ++ b3 ++ b4) k =
      if k < 8 then b4.getLsbD k
      else if k - 8 < 8 then b3.getLsbD (k - 8) else b2.getLsbD (k - 8 - 8) := by
  have h1 : BitVec.getLsbD (w := 24) (b2 ++ b3 ++ b4) k =
      if k < 8 then b4.getLsbD k else (b2 ++ b3).getLsbD (k - 8) := BitVec.getLsbD_append
  rw [h1, BitVec.getLsbD_append]

theorem getLsbD_param (top : BitVec 1) (id : BitVec 3) (slot : BitVec 4) (k : Nat) :
    BitVec.getLsbD (w := 8) (top ++ id ++ slot) k =
      if k < 4 then slot.getLsbD k
      else if k - 4 < 3 then id.getLsbD (k - 4) else top.getLsbD (k - 4 - 3) := by
  have h1 : BitVec.getLsbD (w := 8) (top ++ id ++ slot) k =
      if k < 4 then slot.getLsbD k else (top ++ id).getLsbD (k - 4) := BitVec.getLsbD_append
  rw [h1, BitVec.getLsbD_append]

theorem getLsbD_badId (top : BitVec 1) (low : BitVec 7) (k : Nat) :
    BitVec.getLsbD (w := 8) (top ++ low) k = if k < 7 then low.getLsbD k else top.getLsbD (k - 7) :=
  BitVec.getLsbD_append

theorem getLsbD_flag67 (top : BitVec 3) (f : BitVec 1) (k : Nat) :
    BitVec.getLsbD (w := 4) (top ++ f) k = if k < 1 then f.getLsbD k else top.getLsbD (k - 1) :=
  BitVec.getLsbD_append

theorem getLsbD_flag8F (top : BitVec 1) (f : BitVec 3) (k : Nat) :
    BitVec.getLsbD (w := 4) (top ++ f) k = if k < 3 then f.getLsbD k else top.getLsbD (k - 3) :=
  BitVec.getLsbD_append

theorem Frame.word_getLsbD (f : Frame) (k : Nat) :
    f.word.getLsbD k =
      if k < 8 then f.b4.getLsbD k
      else if k - 8 < 8 then f.b3.getLsbD (k - 8)
      else if k - 8 - 8 < 8 then f.b2.getLsbD (k - 8 - 8)
      else if k - 8 - 8 - 8 < 4 then f.chan.getLsbD (k - 8 - 8 - 8)
      else if k - 8 - 8 - 8 - 4 < 4 then f.flag.getLsbD (k - 8 - 8 - 8 - 4)
      else f.marker.getLsbD (k - 8 - 8 - 8 - 4 - 4) := by
  have h1 : f.word.getLsbD k =
      if k < 8 then f.b4.getLsbD k
      else (f.marker ++ f.flag ++ f.chan ++ f.b2 ++ f.b3).getLsbD (k - 8) := BitVec.getLsbD_append
  simp only [h1, BitVec.getLsbD_append]

/-! ### Fields of what was put together -/

@[simp] theorem cmdOp_append (op : BitVec 4) (data : BitVec 8) : cmdOp (op ++ data) = op := by
  apply BitVec.eq_of_getLsbD_eq
  intro k hk
  simp [cmdOp, getLsbD_cmd, -BitVec.getLsbD_eq_getElem, hk]

@[simp] theorem cmdData_append (op : BitVec 4) (data : BitVec 8) : cmdData (op ++ data) = data := by
  apply BitVec.eq_of_getLsbD_eq
  intro k hk
  simp [cmdData, getLsbD_cmd, -BitVec.getLsbD_eq_getElem, hk]

/-- A command word is its opcode and its data. -/
theorem cmd_eq_append (w : CmdWord) : w = cmdOp w ++ cmdData w := by
  apply BitVec.eq_of_getLsbD_eq
  intro k hk
  simp only [getLsbD_cmd, cmdOp, cmdData, BitVec.getLsbD_extractLsb']
  interval_cases k <;> simp

@[simp] theorem highNibble_append (hi lo : BitVec 4) : highNibble (hi ++ lo) = hi := by
  apply BitVec.eq_of_getLsbD_eq
  intro k hk
  simp [highNibble, getLsbD_nibbles, -BitVec.getLsbD_eq_getElem, hk]

@[simp] theorem lowNibble_append (hi lo : BitVec 4) : lowNibble (hi ++ lo) = lo := by
  apply BitVec.eq_of_getLsbD_eq
  intro k hk
  simp [lowNibble, getLsbD_nibbles, -BitVec.getLsbD_eq_getElem, hk]

/-- A byte is its two nibbles. -/
theorem byte_eq_append (b : Byte) : b = highNibble b ++ lowNibble b := by
  apply BitVec.eq_of_getLsbD_eq
  intro k hk
  simp only [getLsbD_nibbles, highNibble, lowNibble, BitVec.getLsbD_extractLsb']
  interval_cases k <;> simp

/-- The raw fields of a frame's word are the frame. -/
@[simp] theorem frameOfWord_word (f : Frame) : frameOfWord f.word = f := by
  cases f with
  | mk marker flag chan b2 b3 b4 =>
    simp only [frameOfWord, Frame.mk.injEq]
    refine ⟨?_, ?_, ?_, ?_, ?_, ?_⟩ <;>
    · apply BitVec.eq_of_getLsbD_eq
      intro k hk
      simp only [BitVec.getLsbD_extractLsb', Frame.word_getLsbD]
      interval_cases k <;> simp

/-- Every word is the word of its raw fields. -/
@[simp] theorem word_frameOfWord (F : FrameWord) : (frameOfWord F).word = F := by
  apply BitVec.eq_of_getLsbD_eq
  intro k hk
  simp only [Frame.word_getLsbD, frameOfWord, BitVec.getLsbD_extractLsb']
  interval_cases k <;> simp

/-- The bytes of a frame, put together again. -/
@[simp] theorem frameOfBytes_bytes (f : Frame) :
    frameOfBytes f.marker f.byte1 f.b2 f.b3 f.b4 = f := by
  simp [frameOfBytes, Frame.byte1]

/-- `byte[1]` of a frame put together from bytes. -/
@[simp] theorem frameOfBytes_byte1 (b0 b1 b2 b3 b4 : Byte) :
    (frameOfBytes b0 b1 b2 b3 b4).byte1 = b1 := (byte_eq_append b1).symm

/-! ### Rows -/

/-- A bitwise test of a row: the word agrees with the pattern on the mask. -/
theorem TableRow.hits_of_bits {n : Nat} (r : TableRow n) (w : BitVec n)
    (h : ∀ k, k < n → (w.getLsbD k && r.mask.getLsbD k) = r.pattern.getLsbD k) :
    r.hits w = true := by
  simp only [TableRow.hits, beq_iff_eq]
  apply BitVec.eq_of_getLsbD_eq
  intro k hk
  simpa using h k hk

/-- The row of a frame is decided by its flag, and for flags 1 and 4 by its payload
(spec/30_encoding.md R65). -/
theorem frameRow_cases (f : Frame) :
    (f.flag = 0#4 ∧ frameRow f = .key) ∨
    (f.flag = 1#4 ∧ f.tempo = 0#24 ∧ frameRow f = .tempoZero) ∨
    (f.flag = 1#4 ∧ f.tempo ≠ 0#24 ∧ frameRow f = .tempo) ∨
    (f.flag = 2#4 ∧ frameRow f = .endOfSequence) ∨
    (f.flag = 3#4 ∧ frameRow f = .nop) ∨
    (f.flag = 4#4 ∧ f.b2.getLsbD 7 = false ∧ frameRow f = .param) ∨
    (f.flag = 4#4 ∧ f.b2.getLsbD 7 = true ∧ frameRow f = .paramBadId) ∨
    (f.flag = 5#4 ∧ frameRow f = .skip) ∨
    ((f.flag = 6#4 ∨ f.flag = 7#4) ∧ frameRow f = .unknown67) ∨
    (8 ≤ f.flag.toNat ∧ frameRow f = .unknown8F) := by
  obtain ⟨marker, flag, chan, b2, b3, b4⟩ := f
  have h : ∀ x : BitVec 4, x = 0#4 ∨ x = 1#4 ∨ x = 2#4 ∨ x = 3#4 ∨ x = 4#4 ∨ x = 5#4 ∨ x = 6#4 ∨
      x = 7#4 ∨ (8 ≤ x.toNat ∧ x.getLsbD 3 = true ∧ x ≠ 0#4 ∧ x ≠ 1#4 ∧ x ≠ 2#4 ∧ x ≠ 3#4 ∧
        x ≠ 4#4 ∧ x ≠ 5#4) := by
    decide
  rcases h flag with rfl | rfl | rfl | rfl | rfl | rfl | rfl | rfl | ⟨h8, h3, h0, h1, h2, h3', h4, h5⟩
  · simp [frameRow]
  · by_cases ht : Frame.tempo ⟨marker, 1#4, chan, b2, b3, b4⟩ = 0#24 <;> simp [frameRow, ht]
  · simp [frameRow]
  · simp [frameRow]
  · by_cases hb : b2.getLsbD 7 = true <;> simp [frameRow, hb]
  · simp [frameRow]
  · simp [frameRow]
  · simp [frameRow]
  · simp_all [frameRow]

end Sys2Proof
end

