-- ==== Sys2Proof/Laws/State.lean ====
section
/-! SUPPORT. What each named update of the state does to each field: one lemma per field per update. -/

namespace Sys2Proof.Machine

@[simp] theorem respond_crc (o : Output) (s : State) : (respond o s).crc = s.crc := rfl
@[simp] theorem respond_buf (o : Output) (s : State) : (respond o s).buf = s.buf := rfl
@[simp] theorem respond_cnt (o : Output) (s : State) : (respond o s).cnt = s.cnt := rfl
@[simp] theorem respond_fpState (o : Output) (s : State) : (respond o s).fpState = s.fpState := rfl
@[simp] theorem respond_out (o : Output) (s : State) : (respond o s).out = o := rfl
@[simp] theorem respond_params (o : Output) (s : State) : (respond o s).params = s.params := rfl
@[simp] theorem respond_pending (o : Output) (s : State) : (respond o s).pending = s.pending := rfl
@[simp] theorem respond_tick (o : Output) (s : State) : (respond o s).tick = s.tick := rfl

@[simp] theorem writeCrc_crc (c : CrcWord) (s : State) : (writeCrc c s).crc = c := rfl
@[simp] theorem writeCrc_buf (c : CrcWord) (s : State) : (writeCrc c s).buf = s.buf := rfl
@[simp] theorem writeCrc_cnt (c : CrcWord) (s : State) : (writeCrc c s).cnt = s.cnt := rfl
@[simp] theorem writeCrc_fpState (c : CrcWord) (s : State) : (writeCrc c s).fpState = s.fpState := rfl
@[simp] theorem writeCrc_out (c : CrcWord) (s : State) : (writeCrc c s).out = s.out := rfl
@[simp] theorem writeCrc_params (c : CrcWord) (s : State) : (writeCrc c s).params = s.params := rfl
@[simp] theorem writeCrc_pending (c : CrcWord) (s : State) : (writeCrc c s).pending = s.pending := rfl
@[simp] theorem writeCrc_tick (c : CrcWord) (s : State) : (writeCrc c s).tick = s.tick := rfl

@[simp] theorem setParser_crc (f : FpState) (s : State) : (setParser f s).crc = s.crc := rfl
@[simp] theorem setParser_buf (f : FpState) (s : State) : (setParser f s).buf = s.buf := rfl
@[simp] theorem setParser_cnt (f : FpState) (s : State) : (setParser f s).cnt = 0 := rfl
@[simp] theorem setParser_fpState (f : FpState) (s : State) : (setParser f s).fpState = f := rfl
@[simp] theorem setParser_out (f : FpState) (s : State) : (setParser f s).out = s.out := rfl
@[simp] theorem setParser_params (f : FpState) (s : State) : (setParser f s).params = s.params := rfl
@[simp] theorem setParser_pending (f : FpState) (s : State) : (setParser f s).pending = s.pending := rfl
@[simp] theorem setParser_tick (f : FpState) (s : State) : (setParser f s).tick = s.tick := rfl

@[simp] theorem storeByte_crc (b : Byte) (s : State) : (storeByte b s).crc = s.crc := rfl
@[simp] theorem storeByte_buf (b : Byte) (s : State) : (storeByte b s).buf = s.buf.set s.cnt.val b s.cnt.isLt := rfl
@[simp] theorem storeByte_cnt (b : Byte) (s : State) : (storeByte b s).cnt = s.cnt + 1 := rfl
@[simp] theorem storeByte_fpState (b : Byte) (s : State) : (storeByte b s).fpState = s.fpState := rfl
@[simp] theorem storeByte_out (b : Byte) (s : State) : (storeByte b s).out = s.out := rfl
@[simp] theorem storeByte_params (b : Byte) (s : State) : (storeByte b s).params = s.params := rfl
@[simp] theorem storeByte_pending (b : Byte) (s : State) : (storeByte b s).pending = s.pending := rfl
@[simp] theorem storeByte_tick (b : Byte) (s : State) : (storeByte b s).tick = s.tick := rfl

@[simp] theorem storeFrame_crc (f : Frame) (s : State) : (storeFrame f s).crc = s.crc := rfl
@[simp] theorem storeFrame_buf (f : Frame) (s : State) : (storeFrame f s).buf = frameBuffer f := rfl
@[simp] theorem storeFrame_cnt (f : Frame) (s : State) : (storeFrame f s).cnt = s.cnt := rfl
@[simp] theorem storeFrame_fpState (f : Frame) (s : State) : (storeFrame f s).fpState = s.fpState := rfl
@[simp] theorem storeFrame_out (f : Frame) (s : State) : (storeFrame f s).out = s.out := rfl
@[simp] theorem storeFrame_params (f : Frame) (s : State) : (storeFrame f s).params = s.params := rfl
@[simp] theorem storeFrame_pending (f : Frame) (s : State) : (storeFrame f s).pending = s.pending := rfl
@[simp] theorem storeFrame_tick (f : Frame) (s : State) : (storeFrame f s).tick = s.tick := rfl

@[simp] theorem releaseBuf_crc (s : State) : (releaseBuf s).crc = s.crc := rfl
@[simp] theorem releaseBuf_buf (s : State) : (releaseBuf s).buf = Vector.ofFn (fun i => Config.resetByte s.tick i) := rfl
@[simp] theorem releaseBuf_cnt (s : State) : (releaseBuf s).cnt = s.cnt := rfl
@[simp] theorem releaseBuf_fpState (s : State) : (releaseBuf s).fpState = s.fpState := rfl
@[simp] theorem releaseBuf_out (s : State) : (releaseBuf s).out = s.out := rfl
@[simp] theorem releaseBuf_params (s : State) : (releaseBuf s).params = s.params := rfl
@[simp] theorem releaseBuf_pending (s : State) : (releaseBuf s).pending = s.pending := rfl
@[simp] theorem releaseBuf_tick (s : State) : (releaseBuf s).tick = s.tick := rfl

@[simp] theorem takeInput_crc (s : State) : (takeInput s).crc = s.crc := rfl
@[simp] theorem takeInput_buf (s : State) : (takeInput s).buf = s.buf := rfl
@[simp] theorem takeInput_cnt (s : State) : (takeInput s).cnt = s.cnt := rfl
@[simp] theorem takeInput_fpState (s : State) : (takeInput s).fpState = s.fpState := rfl
@[simp] theorem takeInput_out (s : State) : (takeInput s).out = s.out := rfl
@[simp] theorem takeInput_params (s : State) : (takeInput s).params = s.params := rfl
@[simp] theorem takeInput_pending (s : State) : (takeInput s).pending = s.pending.tail := rfl
@[simp] theorem takeInput_tick (s : State) : (takeInput s).tick = s.tick + 1 := rfl

@[simp] theorem presentNext_crc (i : Input) (s : State) : (presentNext i s).crc = s.crc := rfl
@[simp] theorem presentNext_buf (i : Input) (s : State) : (presentNext i s).buf = s.buf := rfl
@[simp] theorem presentNext_cnt (i : Input) (s : State) : (presentNext i s).cnt = s.cnt := rfl
@[simp] theorem presentNext_fpState (i : Input) (s : State) : (presentNext i s).fpState = s.fpState := rfl
@[simp] theorem presentNext_out (i : Input) (s : State) : (presentNext i s).out = s.out := rfl
@[simp] theorem presentNext_params (i : Input) (s : State) : (presentNext i s).params = s.params := rfl
@[simp] theorem presentNext_pending (i : Input) (s : State) : (presentNext i s).pending = i :: s.pending := rfl
@[simp] theorem presentNext_tick (i : Input) (s : State) : (presentNext i s).tick = s.tick := rfl

/-- Two states are equal when their fields are. -/
theorem State.eq_of_fields {s t : State} (crc : s.crc = t.crc) (buf : s.buf = t.buf)
    (cnt : s.cnt = t.cnt) (fp : s.fpState = t.fpState) (out : s.out = t.out)
    (params : s.params = t.params) (pending : s.pending = t.pending) (tick : s.tick = t.tick) :
    s = t := by
  cases s; cases t; simp_all

end Sys2Proof.Machine
end

