-- ==== Sys2Proof/Laws/Ops.lean ====
section
/-! SUPPORT. What each shared operation can do, said once. -/

namespace Sys2Proof.Machine

/-! ### Frames -/

theorem completeFrame_of_run (f : Frame) (present : Output → Output) (after : FpState) {s : State}
    (h : s.fpState = .run) :
    completeFrame f present after s =
      respond (present (frameRecord s.params f)) (setParser after (storeFrame f s)) := by
  simp [completeFrame, h]

theorem completeFrame_outside (f : Frame) (present : Output → Output) (after : FpState) {s : State}
    (h : s.fpState ≠ .run) : completeFrame f present after s = report .dropped s := by
  simp [completeFrame, h]

@[simp] theorem completeFrame_crc (f : Frame) (present : Output → Output) (after : FpState)
    (s : State) : (completeFrame f present after s).crc = s.crc := by
  unfold completeFrame; split <;> rfl

@[simp] theorem completeFrame_params (f : Frame) (present : Output → Output) (after : FpState)
    (s : State) : (completeFrame f present after s).params = s.params := by
  unfold completeFrame; split <;> rfl

@[simp] theorem completeFrame_pending (f : Frame) (present : Output → Output) (after : FpState)
    (s : State) : (completeFrame f present after s).pending = s.pending := by
  unfold completeFrame; split <;> rfl

@[simp] theorem completeFrame_tick (f : Frame) (present : Output → Output) (after : FpState)
    (s : State) : (completeFrame f present after s).tick = s.tick := by
  unfold completeFrame; split <;> rfl

/-- Running a collected frame is executing the instruction it decodes to. -/
theorem runFrame_eq_exec (f : Frame) (s : State) : runFrame f s = exec (decodeFrame f) s := by
  unfold runFrame decodeFrame
  cases frameRow f <;> rfl

/-! ### Conditions -/

/-- A step that reports a condition changes the record and nothing else. -/
theorem report_eq (c : Condition) (s : State) : report c s = { s with out := raise c {} } := rfl

@[simp] theorem raise_tx (c : Condition) (o : Output) : (raise c o).tx = o.tx := by cases c <;> rfl

@[simp] theorem raise_frameValid (c : Condition) (o : Output) :
    (raise c o).frameValid = o.frameValid := by cases c <;> rfl

@[simp] theorem raise_evValid (c : Condition) (o : Output) : (raise c o).evValid = o.evValid := by
  cases c <;> rfl

@[simp] theorem raise_evKind (c : Condition) (o : Output) : (raise c o).evKind = o.evKind := by
  cases c <;> rfl

/-! ### Inputs -/

@[simp] theorem nextInput_presentNext (i : Input) (s : State) : nextInput (presentNext i s) = i := rfl

@[simp] theorem takeInput_presentNext (i : Input) (s : State) :
    takeInput (presentNext i s) = { s with tick := s.tick + 1 } := rfl

theorem nextInput_of_pending {s : State} {i : Input} {rest : List Input}
    (h : s.pending = i :: rest) : nextInput s = i := by simp [nextInput, h]

theorem nextInput_of_none {s : State} (h : s.pending = []) :
    nextInput s = { rst := Config.envRst s.tick, cmd := Config.envCmd s.tick } := by
  simp [nextInput, h]

/-! ### Sequences -/

@[simp] theorem execAll_nil (s : State) : execAll [] s = .next s := rfl

theorem execAll_cons_of_next {i : Instr} {s t : State} (h : exec i s = .next t)
    (rest : List Instr) : execAll (i :: rest) s = execAll rest t := by
  simp [execAll, h]

theorem outputsOf_cons_of_next {i : Instr} {s t : State} (h : exec i s = .next t)
    (rest : List Instr) : outputsOf (i :: rest) s = t.out :: outputsOf rest t := by
  simp [outputsOf, h]

end Sys2Proof.Machine
end

