-- ==== Sys2Proof/Laws/PerInstr.lean ====
section
/-! SUPPORT. One law for every instruction: its encoding has the fixed bits of its own row of
spec/opcode_table.json. -/

namespace Sys2Proof.Laws.EncodingHitsRow

/-- The command word or the frame word of the instruction hits a row of the table that bears its
mnemonic. -/
def Statement (i : Instr) : Prop :=
  (∃ w, i.cmd? = some w ∧ ∃ r ∈ cmdTable, r.mnemonic = i.mnemonic ∧ r.hits w = true) ∨
  (∃ f, i.frame? = some f ∧ ∃ r ∈ frameTable, r.mnemonic = i.mnemonic ∧ r.hits f.word = true)

theorem idle : Statement (.idle) := by
  refine Or.inl ⟨_, rfl, ⟨"IDLE", 0x000#12, 0xF00#12⟩, by simp [cmdTable], rfl, ?_⟩
  decide
theorem crcClr : Statement (.crcClr) := by
  refine Or.inl ⟨_, rfl, ⟨"CRC_CLR", 0x100#12, 0xF00#12⟩, by simp [cmdTable], rfl, ?_⟩
  decide
theorem crcBit (d : Bool) : Statement (.crcBit d) := by
  refine Or.inl ⟨_, rfl, ⟨"CRC_BIT", 0x200#12, 0xF00#12⟩, by simp [cmdTable], rfl, ?_⟩
  cases d <;> decide
theorem crcByte (b : Byte) : Statement (.crcByte b) := by
  refine Or.inl ⟨_, rfl, ⟨"CRC_BYTE", 0x300#12, 0xF00#12⟩, by simp [cmdTable], rfl, ?_⟩
  exact TableRow.hits_of_bits _ _ (fun k hk => by
    interval_cases k <;> simp [getLsbD_cmd, -BitVec.getLsbD_eq_getElem])
theorem crcRd : Statement (.crcRd) := by
  refine Or.inl ⟨_, rfl, ⟨"CRC_RD", 0x400#12, 0xF00#12⟩, by simp [cmdTable], rfl, ?_⟩
  decide
theorem reserved5 : Statement (.reserved5) := by
  refine Or.inl ⟨_, rfl, ⟨"RESERVED_5", 0x500#12, 0xF00#12⟩, by simp [cmdTable], rfl, ?_⟩
  decide
theorem reserved67 (o : BitVec 1) : Statement (.reserved67 o) := by
  refine Or.inl ⟨_, rfl, ⟨"RESERVED_6_7", 0x600#12, 0xE00#12⟩, by simp [cmdTable], rfl, ?_⟩
  revert o
  decide
theorem fpStart : Statement (.fpStart) := by
  refine Or.inl ⟨_, rfl, ⟨"FP_START", 0x800#12, 0xF00#12⟩, by simp [cmdTable], rfl, ?_⟩
  decide
theorem fpStop : Statement (.fpStop) := by
  refine Or.inl ⟨_, rfl, ⟨"FP_STOP", 0x900#12, 0xF00#12⟩, by simp [cmdTable], rfl, ?_⟩
  decide
theorem fpByte (b : Byte) : Statement (.fpByte b) := by
  refine Or.inl ⟨_, rfl, ⟨"FP_BYTE", 0xA00#12, 0xF00#12⟩, by simp [cmdTable], rfl, ?_⟩
  exact TableRow.hits_of_bits _ _ (fun k hk => by
    interval_cases k <;> simp [getLsbD_cmd, -BitVec.getLsbD_eq_getElem])
theorem fpAbort (cause : ErrCause) : Statement (.fpAbort cause) := by
  refine Or.inl ⟨_, rfl, ⟨"FP_ABORT", 0xB00#12, 0xF00#12⟩, by simp [cmdTable], rfl, ?_⟩
  cases cause <;> decide
theorem reservedCF (o : BitVec 2) : Statement (.reservedCF o) := by
  refine Or.inl ⟨_, rfl, ⟨"RESERVED_C_F", 0xC00#12, 0xC00#12⟩, by simp [cmdTable], rfl, ?_⟩
  revert o
  decide
theorem fKey (marker : Byte) (chan : Nibble) (b2 : Byte) (key : Byte) (velocity : Byte) : Statement (.fKey marker chan b2 key velocity) := by
  refine Or.inr ⟨_, rfl, ⟨"F.KEY", 0x0000000000#40, 0x00F0000000#40⟩, by simp [frameTable], rfl, ?_⟩
  exact TableRow.hits_of_bits _ _ (fun k hk => by
    interval_cases k <;> simp [Frame.word_getLsbD, -BitVec.getLsbD_eq_getElem])
theorem fTempoZero (marker : Byte) (chan : Nibble) : Statement (.fTempoZero marker chan) := by
  refine Or.inr ⟨_, rfl, ⟨"F.TEMPO_ZERO", 0x0010000000#40, 0x00F0FFFFFF#40⟩, by simp [frameTable], rfl, ?_⟩
  exact TableRow.hits_of_bits _ _ (fun k hk => by
    interval_cases k <;> simp [Frame.word_getLsbD, -BitVec.getLsbD_eq_getElem])
theorem fTempo (marker : Byte) (chan : Nibble) (tempo : TempoWord) : Statement (.fTempo marker chan tempo) := by
  refine Or.inr ⟨_, rfl, ⟨"F.TEMPO", 0x0010000000#40, 0x00F0000000#40⟩, by simp [frameTable], rfl, ?_⟩
  exact TableRow.hits_of_bits _ _ (fun k hk => by
    interval_cases k <;> simp [Frame.word_getLsbD, -BitVec.getLsbD_eq_getElem])
theorem fEnd (marker : Byte) (chan : Nibble) (b2 : Byte) (b3 : Byte) (b4 : Byte) : Statement (.fEnd marker chan b2 b3 b4) := by
  refine Or.inr ⟨_, rfl, ⟨"F.END", 0x0020000000#40, 0x00F0000000#40⟩, by simp [frameTable], rfl, ?_⟩
  exact TableRow.hits_of_bits _ _ (fun k hk => by
    interval_cases k <;> simp [Frame.word_getLsbD, -BitVec.getLsbD_eq_getElem])
theorem fNop (marker : Byte) (chan : Nibble) (b2 : Byte) (b3 : Byte) (b4 : Byte) : Statement (.fNop marker chan b2 b3 b4) := by
  refine Or.inr ⟨_, rfl, ⟨"F.NOP", 0x0030000000#40, 0x00F0000000#40⟩, by simp [frameTable], rfl, ?_⟩
  exact TableRow.hits_of_bits _ _ (fun k hk => by
    interval_cases k <;> simp [Frame.word_getLsbD, -BitVec.getLsbD_eq_getElem])
theorem fParam (marker : Byte) (chan : Nibble) (paramId : BitVec 3) (slot : Nibble) (value : Byte) (b4 : Byte) : Statement (.fParam marker chan paramId slot value b4) := by
  refine Or.inr ⟨_, rfl, ⟨"F.PARAM", 0x0040000000#40, 0x00F0800000#40⟩, by simp [frameTable], rfl, ?_⟩
  exact TableRow.hits_of_bits _ _ (fun k hk => by
    interval_cases k <;> simp [Frame.word_getLsbD, getLsbD_param, -BitVec.getLsbD_eq_getElem])
theorem fParamBadId (marker : Byte) (chan : Nibble) (low : BitVec 7) (b3 : Byte) (b4 : Byte) : Statement (.fParamBadId marker chan low b3 b4) := by
  refine Or.inr ⟨_, rfl, ⟨"F.PARAM_BAD_ID", 0x0040800000#40, 0x00F0800000#40⟩, by simp [frameTable], rfl, ?_⟩
  exact TableRow.hits_of_bits _ _ (fun k hk => by
    interval_cases k <;> simp [Frame.word_getLsbD, getLsbD_badId, -BitVec.getLsbD_eq_getElem])
theorem fSkip (marker : Byte) (chan : Nibble) (b2 : Byte) (b3 : Byte) (b4 : Byte) : Statement (.fSkip marker chan b2 b3 b4) := by
  refine Or.inr ⟨_, rfl, ⟨"F.SKIP", 0x0050000000#40, 0x00F0000000#40⟩, by simp [frameTable], rfl, ?_⟩
  exact TableRow.hits_of_bits _ _ (fun k hk => by
    interval_cases k <;> simp [Frame.word_getLsbD, -BitVec.getLsbD_eq_getElem])
theorem fUnknown67 (marker : Byte) (f : BitVec 1) (chan : Nibble) (b2 : Byte) (b3 : Byte) (b4 : Byte) : Statement (.fUnknown67 marker f chan b2 b3 b4) := by
  refine Or.inr ⟨_, rfl, ⟨"F.UNKNOWN_6_7", 0x0060000000#40, 0x00E0000000#40⟩, by simp [frameTable], rfl, ?_⟩
  exact TableRow.hits_of_bits _ _ (fun k hk => by
    interval_cases k <;> simp [Frame.word_getLsbD, getLsbD_flag67, -BitVec.getLsbD_eq_getElem])
theorem fUnknown8F (marker : Byte) (f : BitVec 3) (chan : Nibble) (b2 : Byte) (b3 : Byte) (b4 : Byte) : Statement (.fUnknown8F marker f chan b2 b3 b4) := by
  refine Or.inr ⟨_, rfl, ⟨"F.UNKNOWN_8_F", 0x0080000000#40, 0x0080000000#40⟩, by simp [frameTable], rfl, ?_⟩
  exact TableRow.hits_of_bits _ _ (fun k hk => by
    interval_cases k <;> simp [Frame.word_getLsbD, getLsbD_flag8F, -BitVec.getLsbD_eq_getElem])

end Sys2Proof.Laws.EncodingHitsRow
end

