-- ==== Sys2Proof/Tests/Slice0.lean ====
section
/-! SUPPORT. Tests. Expected values are those of spec/95_test_vectors.md (V, F, T and P numbers) and
of the worked examples of the rules, or words written out from spec/30_encoding.md; none is the
model's own answer. The second part gives each statement that has hypotheses a state or operands that
meet them. -/

namespace Sys2Proof.Tests

open Sys2Proof.Machine

/-- The next state of an outcome. -/
def after (o : Host.Outcome State Fault Refusal) : Option State :=
  match o with
  | .next t => some t
  | .fault _ => none
  | .refused _ => none

/-- A state from what section 2.5 of the vectors writes, `(crc, cnt, fp_state)`, and its buffer. -/
def st (crc : CrcWord) (cnt : Fin 5) (fp : FpState) (buf : Vector Byte 5) : State :=
  { State.reset with crc := crc, cnt := cnt, fpState := fp, buf := buf }

/-- A buffer whose contents do not matter. -/
def anyBuf : Vector Byte 5 := #v[0xDE#8, 0xAD#8, 0xBE#8, 0xEF#8, 0x55#8]

/-- The same, with `ERR_POLICY = RETRY`. -/
def retrying (s : State) : State := { s with params := { errPolicy := .retry } }

/-- `(crc, cnt, fp_state)` after an operation. -/
def key (o : Host.Outcome State Fault Refusal) : Option (CrcWord × Fin 5 × FpState) :=
  (after o).map (fun t => (t.crc, t.cnt, t.fpState))

/-- The record after an operation. -/
def out (o : Host.Outcome State Fault Refusal) : Option Output := (after o).map (fun t => t.out)

/-- A running parser that has collected the first four bytes of a frame. -/
def four (b0 b1 b2 b3 : Byte) : State := st 0 4 .run #v[b0, b1, b2, b3, 0x99#8]

/-! ### Decoding: words written out from the encoding tables -/

theorem test_decode_idle : decodeCmd 0b000011110000#12 = .idle := by decide
theorem test_decode_crcClr : decodeCmd 0b000100000000#12 = .crcClr := by decide
theorem test_decode_crcBit : decodeCmd 0b001011111110#12 = .crcBit false := by decide
theorem test_decode_crcByte : decodeCmd 0b001100110001#12 = .crcByte 0x31#8 := by decide
theorem test_decode_crcRd : decodeCmd 0b010000000000#12 = .crcRd := by decide
theorem test_decode_reserved5 : decodeCmd 0b010110101011#12 = .reserved5 := by decide
theorem test_decode_reserved67 : decodeCmd 0b011111111111#12 = .reserved67 1#1 := by decide
theorem test_decode_fpStart : decodeCmd 0b100000000000#12 = .fpStart := by decide
theorem test_decode_fpStop : decodeCmd 0b100100000000#12 = .fpStop := by decide
theorem test_decode_fpByte : decodeCmd 0b101001111111#12 = .fpByte 0x7F#8 := by decide
theorem test_decode_fpAbort : decodeCmd 0b101100000001#12 = .fpAbort .ioError := by decide
theorem test_decode_reservedCF : decodeCmd 0b111000010000#12 = .reservedCF 2#2 := by decide
theorem test_decode_fKey :
    decodeTableWord 40 0b00100000_0000_0000_00100000_00100000_00100000 =
      some (.fKey 0x20#8 0#4 0x20#8 0x20#8 0x20#8) := by decide
theorem test_decode_fTempoZero :
    decodeTableWord 40 0b00000000_0001_1111_00000000_00000000_00000000 =
      some (.fTempoZero 0#8 15#4) := by decide
theorem test_decode_fTempo :
    decodeTableWord 40 0b00000000_0001_1100_00000111_10100001_00100000 =
      some (.fTempo 0#8 12#4 500000#24) := by decide
theorem test_decode_fEnd :
    decodeTableWord 40 0b00000000_0010_0101_00001001_00001001_00001001 =
      some (.fEnd 0#8 5#4 9#8 9#8 9#8) := by decide
theorem test_decode_fNop :
    decodeTableWord 40 0b00000000_0011_0000_00000000_00000000_00000000 =
      some (.fNop 0#8 0#4 0#8 0#8 0#8) := by decide
theorem test_decode_fParam :
    decodeTableWord 40 0b00000000_0100_0111_0010_0101_01100100_00000000 =
      some (.fParam 0#8 7#4 2#3 5#4 100#8 0#8) := by decide
theorem test_decode_fParamBadId :
    decodeTableWord 40 0b00000000_0100_1010_1111_0011_00010010_00110100 =
      some (.fParamBadId 0#8 10#4 0x73#7 0x12#8 0x34#8) := by decide
theorem test_decode_fSkip :
    decodeTableWord 40 0b00000101_0101_0000_00000000_00000000_00000000 =
      some (.fSkip 5#8 0#4 0#8 0#8 0#8) := by decide
theorem test_decode_fUnknown67 :
    decodeTableWord 40 0b00000000_0110_1010_00000001_00000010_00000011 =
      some (.fUnknown67 0#8 0#1 10#4 1#8 2#8 3#8) := by decide
theorem test_decode_fUnknown8F :
    decodeTableWord 40 0b00000000_1111_0101_00000000_00000000_00000000 =
      some (.fUnknown8F 0#8 7#3 5#4 0#8 0#8 0#8) := by decide

theorem test_decode_refuses_thirteen_bits : decode [0x13#8, 0x00#8] = .error .moreThanTwelveBits := by
  decide
theorem test_decode_refuses_four_bytes : decode [0#8, 0#8, 0#8, 0#8] = .error .wrongLength := by decide
theorem test_wellFormed_refuses_tempo_zero : (Instr.fTempo 0#8 0#4 0#24).wellFormed = false := by decide

/-! ### The CRC -/

/-- Vectors of section 2.1: `crc_bit`. -/
theorem test_crcBit_vectors :
    [crcBit 0x0000 false, crcBit 0x0000 true, crcBit 0x8000 false, crcBit 0x8000 true,
      crcBit 0xFFFF false, crcBit 0xFFFF true, crcBit 0x1021 false, crcBit 0x4084 false,
      crcBit 0x8108 false] =
    [0x0000#16, 0x1021#16, 0x1021#16, 0x0000#16, 0xEFDF#16, 0xFFFE#16, 0x2042#16, 0x8108#16,
      0x1231#16] := by decide

/-- V2 to V11. -/
theorem test_crcOf_vectors :
    [crcOf [0x00], crcOf [0x01], crcOf [0x02], crcOf [0x80], crcOf [0xFF], crcOf [0x41],
      crcOf [0x00, 0x01], crcOf [0x01, 0x00], crcOf [0xFF, 0xFF], crcOf [0x31, 0x32]] =
    [0x0000#16, 0x1021#16, 0x2042#16, 0x9188#16, 0x1EF0#16, 0x58E5#16, 0x1021#16, 0x3331#16,
      0x1D0F#16, 0x20B5#16] := by decide +kernel

/-- V12, with the literal corrected by 90_conflicts.md C1; and the source's literal from the all-ones
start. -/
theorem test_crcOf_reference_string :
    crcOf [0x31, 0x32, 0x33, 0x34, 0x35, 0x36, 0x37, 0x38, 0x39] = 0x31C3#16 ∧
    crcFrom 0xFFFF#16 [0x31, 0x32, 0x33, 0x34, 0x35, 0x36, 0x37, 0x38, 0x39] = 0x29B1#16 := by
  decide +kernel

/-- The self-check law on V12 (section 2.3). -/
theorem test_crc_self_check : crcFrom 0x31C3#16 [0x31, 0xC3] = 0x0000#16 := by decide +kernel

/-- T15. -/
theorem test_crcClr : key (exec .crcClr (st 0x31C3 4 .run anyBuf)) = some (0x0000, 4, .run) := by decide
/-- T18. -/
theorem test_crcBit :
    key (exec (decodeCmd 0x2FF#12) (st 0 0 .run anyBuf)) = some (0x1021, 0, .run) := by decide
/-- R90's example. -/
theorem test_crcByte :
    key (exec (.crcByte 0x31#8) (st 0 0 .idle anyBuf)) = some (0x2672, 0, .idle) := by decide
/-- T14. -/
theorem test_crcRd :
    out (exec .crcRd (st 0x31C3 0 .idle anyBuf)) = some { tx := [0x31#8, 0xC3#8] } := by decide
theorem test_crcRd_keeps_crc :
    key (exec .crcRd (st 0x31C3 0 .idle anyBuf)) = some (0x31C3, 0, .idle) := by decide

/-! ### Common operations -/

/-- T11. -/
theorem test_idle : after (exec .idle (st 0x2672 3 .run anyBuf)) = some (st 0x2672 3 .run anyBuf) := by
  decide
/-- T12. -/
theorem test_reserved5 :
    after (exec (decodeCmd 0x5AB#12) (st 0x2672 3 .run anyBuf)) =
      some { st 0x2672 3 .run anyBuf with out := { badOp := true } } := by decide
/-- T12. -/
theorem test_reserved67 :
    after (exec (decodeCmd 0x600#12) (st 0x2672 3 .run anyBuf)) =
      some { st 0x2672 3 .run anyBuf with out := { badOp := true } } := by decide
/-- T12. -/
theorem test_reservedCF :
    after (exec (decodeCmd 0xFFF#12) (st 0x2672 3 .run anyBuf)) =
      some { st 0x2672 3 .run anyBuf with out := { badOp := true } } := by decide
/-- T13, with the command word not looked at. -/
theorem test_reset_step :
    key (step { st 0x2672 3 .run anyBuf with pending := [{ rst := true, cmd := 0x5AB#12 }] }) =
      some (0, 0, .idle) := by decide
theorem test_reset_step_raises_nothing :
    out (step { st 0x2672 3 .run anyBuf with pending := [{ rst := true, cmd := 0x5AB#12 }] }) =
      some {} := by decide

/-! ### The parser -/

/-- T2, T3. -/
theorem test_fpStart :
    [key (exec .fpStart (st 0 0 .idle anyBuf)), key (exec .fpStart (st 0 2 .run anyBuf))] =
      [some (0, 0, .run), some (0, 0, .run)] := by decide
/-- T4. -/
theorem test_fpStop : key (exec .fpStop (st 0 2 .run anyBuf)) = some (0, 0, .idle) := by decide
/-- T1 and T10. -/
theorem test_fpByte_dropped :
    [after (exec (.fpByte 0x12#8) (st 0 0 .idle anyBuf)),
      after (exec (.fpByte 0x20#8) (st 0 0 .ended anyBuf))] =
    [some { st 0 0 .idle anyBuf with out := { drop := true } },
      some { st 0 0 .ended anyBuf with out := { drop := true } }] := by decide
/-- R103's example. -/
theorem test_fpByte_completes :
    (after (exec (.fpByte 0x7F#8) (four 0x00 0x03 0x00 0x3C))).map (fun t =>
      (t.cnt, t.out.fChan, t.out.key, t.out.velocity, t.out.noteOn)) =
    some (0, some 3#4, some 60#8, some 127#8, some true) := by decide
/-- T5, T8. -/
theorem test_fpAbort_terminate :
    [after (exec (.fpAbort .timeout) (st 0 3 .run anyBuf)),
      after (exec (.fpAbort .timeout) (st 0 0 .failed anyBuf))] =
    [some { st 0 0 .failed anyBuf with out := { errValid := true, errCause := some .timeout } },
      some (st 0 0 .failed anyBuf)] := by decide
/-- T6. -/
theorem test_fpAbort_retry :
    after (exec (.fpAbort .ioError) (retrying (st 0 3 .run anyBuf))) =
      some { retrying (st 0 0 .run anyBuf) with
        out := { errValid := true, errCause := some .ioError } } := by decide

/-! ### Frames: the raw fields and strobes of the F vectors -/

/-- F3: a note-off is forwarded. -/
theorem test_fKey :
    out (exec (.fpByte 0x00#8) (four 0x00 0x03 0x00 0x3C)) = some
      { frameValid := true, evValid := true, fMarker := some 0, fFlag := some 0, fChan := some 3,
        fB2 := some 0, fB3 := some 0x3C, fB4 := some 0, markerOk := some true, evKind := some .key,
        key := some 60, velocity := some 0, noteOn := some false } := by decide
/-- F9. -/
theorem test_fTempoZero :
    out (exec (.fpByte 0x00#8) (four 0x00 0x1F 0x00 0x00)) = some
      { frameValid := true, rejValid := true, rejReason := some .tempoZero, fMarker := some 0,
        fFlag := some 1, fChan := some 15, fB2 := some 0, fB3 := some 0, fB4 := some 0,
        markerOk := some true, evKind := some .tempo, tempo := some 0 } := by decide
/-- F7. -/
theorem test_fTempo :
    out (exec (.fpByte 0x20#8) (four 0x00 0x1C 0x07 0xA1)) = some
      { frameValid := true, evValid := true, fMarker := some 0, fFlag := some 1, fChan := some 12,
        fB2 := some 7, fB3 := some 0xA1, fB4 := some 0x20, markerOk := some true,
        evKind := some .tempo, tempo := some 500000 } := by decide
/-- F10 and T16. -/
theorem test_fEnd :
    (after (exec (.fpByte 0x09#8) (four 0x00 0x25 0x09 0x09))).map (fun t =>
      (t.cnt, t.fpState, t.out.frameValid, t.out.evValid, t.out.evKind)) =
      some (0, .ended, true, true, some .endOfSequence) := by decide
/-- F11. -/
theorem test_fNop :
    (after (exec (.fpByte 0x00#8) (four 0x00 0x30 0x00 0x00))).map (fun t =>
      (t.fpState, t.out.frameValid, t.out.evValid, t.out.rejValid, t.out.evKind)) =
      some (.run, true, false, false, some .nop) := by decide
/-- F15: the slot is not the channel. -/
theorem test_fParam :
    (after (exec (.fpByte 0x00#8) (four 0x00 0x47 0x25 0x64))).map (fun t =>
      (t.out.evValid, t.out.evKind, t.out.slot, t.out.paramId, t.out.value)) =
      some (true, some .param, some 5#4, some 2#4, some 100#8) := by decide
/-- F13: the last legal sub-id. -/
theorem test_fParam_last :
    (after (exec (.fpByte 0x00#8) (four 0x00 0x40 0x7F 0x80))).map (fun t =>
      (t.out.slot, t.out.paramId, t.out.value)) = some (some 15#4, some 7#4, some 128#8) := by decide
/-- F16: the first illegal sub-id. -/
theorem test_fParamBadId :
    (after (exec (.fpByte 0x00#8) (four 0x00 0x40 0x80 0x00))).map (fun t =>
      (t.out.evValid, t.out.evKind, t.out.unkFlag, t.out.paramId)) =
      some (true, some .unknown, some 4#4, none) := by decide
/-- F18, and `MARKER_EXPECT = 0x05` with the markers 05 and 04 (section 2.4). -/
theorem test_fSkip_marker :
    ([0x05#8, 0x04#8].map fun m =>
      (after (exec (.fpByte 0x00#8)
        { four m 0x50 0x00 0x00 with params := { markerExpect := some 0x05#8 } })).map (fun t =>
          (t.out.evValid, t.out.evKind, t.out.markerOk))) =
      [some (true, some .skipTrack, some true), some (true, some .skipTrack, some false)] := by decide
/-- F19. -/
theorem test_fUnknown67 :
    (after (exec (.fpByte 0x03#8) (four 0x00 0x6A 0x01 0x02))).map (fun t =>
      (t.fpState, t.out.evValid, t.out.evKind, t.out.unkFlag, t.out.fChan)) =
      some (.run, true, some .unknown, some 6#4, some 10#4) := by decide
/-- F21 and F22. -/
theorem test_fUnknown8F :
    ([0x80#8, 0xF5#8].map fun b1 =>
      (after (exec (.fpByte 0x00#8) (four 0x00 b1 0x00 0x00))).map (fun t =>
        (t.out.evValid, t.out.evKind, t.out.unkFlag))) =
      [some (true, some .unknown, some 8#4), some (true, some .unknown, some 15#4)] := by decide

/-- A frame row placed where the step looks runs in the very next step, from reset (F18). -/
theorem test_placed_frame_runs :
    (after (step (State.reset.withFetchWord 40 0x0050000000))).map (fun t =>
      (t.out.frameValid, t.out.evKind)) = some (true, some .skipTrack) := by decide

/-- S2: the document's derived figure. -/
theorem test_bpmDoc : bpmDoc 500000#24 = some 2 := by
  have h : (500000#24 : TempoWord) ≠ 0#24 := by decide
  simp only [bpmDoc, h, if_false]
  norm_num

/-! ### Witnesses: the hypotheses of the statements are met -/

/-- A running parser in the middle of a frame. -/
def midFrame : State := st 0x2672 2 .run anyBuf

theorem witness_reset_input : ({ midFrame with pending := [{ rst := true, cmd := 0xA12#12 }] } : State).pending =
    { rst := true, cmd := 0xA12#12 } :: [] := rfl
theorem witness_command_input : ({ midFrame with pending := [{ rst := false, cmd := 0xA12#12 }] } : State).pending =
    { rst := false, cmd := 0xA12#12 } :: [] := rfl
theorem witness_nothing_pending : midFrame.pending = [] := rfl
theorem witness_invariant : Inv midFrame := by
  refine ⟨fun _ => rfl, fun h => ?_, ?_⟩
  · exact absurd h (by decide)
  · simp [Output.WellFormed, StrobesRelated, DataUnderStrobes, ViewsAgree, midFrame, st, State.reset,
      Output.quiet]
theorem witness_wellFormed : (Instr.fTempo 0#8 0#4 1#24).wellFormed = true := by decide
theorem witness_wellFormed_frame : ∃ f : Frame,
    (Instr.fTempo 0#8 0#4 1#24).frame? = some f ∧ f.word = 0x0010000001#40 := ⟨_, rfl, by decide⟩
theorem witness_unused_data : (0x2#4 ≠ 0x3#4 ∧ 0x2#4 ≠ 0xA#4) ∧
    (0xFE#8).getLsbD 0 = (0x00#8).getLsbD 0 := by decide
theorem witness_flag_map :
    [0x000F000000#40, 0x0010000001#40, 0x0010000000#40, 0x0020000000#40, 0x0030000000#40,
      0x00407F0000#40, 0x0040800000#40, 0x0050000000#40, 0x0060000000#40, 0x0070000000#40,
      0x0080000000#40, 0x00F0000000#40].map (fun F => (F.extractLsb' 28 4, F.getLsbD 23)) =
    [(0#4, false), (1#4, false), (1#4, false), (2#4, false), (3#4, false), (4#4, false), (4#4, true),
      (5#4, false), (6#4, false), (7#4, false), (8#4, false), (15#4, false)] := by decide
theorem witness_used_bits_key :
    (⟨1#8, 0#4, 3#4, 9#8, 60#8, 1#8⟩ : Frame).flag = (⟨2#8, 0#4, 3#4, 8#8, 60#8, 1#8⟩ : Frame).flag ∧
    (⟨1#8, 0#4, 3#4, 9#8, 60#8, 1#8⟩ : Frame) ≠ ⟨2#8, 0#4, 3#4, 8#8, 60#8, 1#8⟩ := by decide
theorem witness_used_bits_param :
    (⟨1#8, 4#4, 3#4, 0x80#8, 60#8, 1#8⟩ : Frame).b2.getLsbD 7 = true ∧
    (⟨2#8, 4#4, 5#4, 0xFF#8, 61#8, 2#8⟩ : Frame).b2.getLsbD 7 = true := by decide
theorem witness_equal_lengths : ([1#8, 2#8] : List Byte).length = [3#8, 4#8].length := rfl
theorem witness_reserved : (0xF#4) ∈ [0x5#4, 0x6#4, 0x7#4, 0xC#4, 0xD#4, 0xE#4, 0xF#4] := by decide
theorem witness_running : midFrame.fpState = .run := rfl
theorem witness_outside_run : (st 0 0 .ended anyBuf).fpState ≠ .run := by decide
theorem witness_first_byte : (st 0 0 .run anyBuf).fpState = .run ∧ (st 0 0 .run anyBuf).cnt.val < 4 := by
  decide
theorem witness_fourth_byte : (st 0 3 .run anyBuf).fpState = .run ∧ (st 0 3 .run anyBuf).cnt.val < 4 := by
  decide
theorem witness_fifth_byte : (four 0 0x20 0 0).fpState = .run ∧ (four 0 0x20 0 0).cnt = 4 := by decide
theorem witness_terminate : midFrame.fpState = .run ∧ midFrame.params.errPolicy = .terminate := by decide
theorem witness_retry : (retrying midFrame).fpState = .run ∧
    (retrying midFrame).params.errPolicy = .retry := by decide
theorem witness_command_word : (Instr.fpByte 0#8).isFrame = false := rfl
theorem witness_frame : (Instr.fKey 0#8 0#4 0#8 0#8 0#8).isFrame = true := rfl
theorem witness_sticky : (st 0 0 .ended anyBuf).fpState = .ended ∧ (st 0 0 .failed anyBuf).fpState = .failed := by
  decide
theorem witness_ended_reached : ∃ t,
    step { four 0 0x20 0 0 with pending := [{ rst := false, cmd := 0xA00#12 }] } = .next t ∧
    t.fpState = .ended ∧ (four 0 0x20 0 0).fpState ≠ .ended := ⟨_, rfl, by decide, by decide⟩
theorem witness_boundary : (st 0 0 .run anyBuf).fpState = .run ∧ (st 0 0 .run anyBuf).cnt = 0 := by decide
theorem witness_tempo : (0x07A120#24) = (0x07#8 ++ 0xA1#8 ++ 0x20#8) ∧ (0x07A120#24) ≠ 0#24 := by decide
theorem witness_no_restart : Instr.fpStart ∉ [Instr.idle, Instr.fpStop, Instr.fpByte 0#8] := by decide
theorem witness_marker_expected : ({ midFrame with params := { markerExpect := some 5#8 } } : State).fpState = .run ∧
    ({ midFrame with params := { markerExpect := some 5#8 } } : State).params.markerExpect = some 5#8 ∧
    midFrame.params.markerExpect = none := by decide
theorem witness_one_of_each_unit : Instr.crcRd.isCrcg = true ∧ (Instr.fpByte 1#8).isFfp = true := by decide
theorem witness_neither_unit : Instr.idle.isCrcg = false ∧ Instr.idle.isFfp = false := by decide
theorem witness_agree_but_stale :
    AgreeButStale midFrame (st 0x2672 2 .run #v[0xDE#8, 0xAD#8, 0#8, 1#8, 2#8]) ∧
    midFrame ≠ st 0x2672 2 .run #v[0xDE#8, 0xAD#8, 0#8, 1#8, 2#8] := by
  refine ⟨⟨rfl, rfl, rfl, rfl, rfl, rfl, rfl, ?_⟩, by decide⟩
  decide

end Sys2Proof.Tests
end

