-- ==== Sys2Proof/Proofs/FrameBytes.lean ====
section
/-! The path of a frame's bytes: four are collected in `buf` in order of arrival, the fifth runs the
row the frame decodes to, and every row stores its frame and shows the raw fields (R46, R63, R103). -/

namespace Sys2Proof

/-! ### A frame is what its instruction spells -/

/-- A byte with its top bit clear is that bit, a sub-id and a slot, as `F.PARAM` cuts it (R123). -/
theorem param_fields_append {b : Byte} (h : b.getLsbD 7 = false) :
    0#1 ++ b.extractLsb' 4 3 ++ lowNibble b = b := by
  apply BitVec.eq_of_getLsbD_eq
  intro k hk
  simp only [getLsbD_param, lowNibble, BitVec.getLsbD_extractLsb']
  interval_cases k <;> simp_all

/-- A byte with its top bit set is that bit and the seven others, as `F.PARAM_BAD_ID` cuts it (R124). -/
theorem badId_fields_append {b : Byte} (h : b.getLsbD 7 = true) :
    1#1 ++ b.extractLsb' 0 7 = b := by
  apply BitVec.eq_of_getLsbD_eq
  intro k hk
  simp only [getLsbD_badId, BitVec.getLsbD_extractLsb']
  interval_cases k <;> simp_all

theorem flag67_append {flag : Nibble} (h : flag = 6#4 ∨ flag = 7#4) :
    0b011#3 ++ flag.extractLsb' 0 1 = flag := by
  rcases h with rfl | rfl <;> rfl

theorem flag8F_append : ∀ {flag : Nibble}, 8 ≤ flag.toNat → 1#1 ++ flag.extractLsb' 0 3 = flag := by
  decide

/-- The payload bytes of a frame are the bytes of its tempo value (R47). -/
theorem Frame.tempo_bytes (f : Frame) :
    f.tempo.extractLsb' 16 8 = f.b2 ∧ f.tempo.extractLsb' 8 8 = f.b3 ∧
      f.tempo.extractLsb' 0 8 = f.b4 := by
  refine ⟨?_, ?_, ?_⟩ <;>
  · apply BitVec.eq_of_getLsbD_eq
    intro k hk
    simp only [Frame.tempo, BitVec.getLsbD_extractLsb', getLsbD_tempo]
    interval_cases k <;> simp

/-- Decoding loses nothing: the instruction a frame decodes to spells that frame (R67). -/
theorem decodeFrame_frame? (f : Frame) : (decodeFrame f).frame? = some f := by
  have hrows := frameRow_cases f
  obtain ⟨h2, h3, h4⟩ := f.tempo_bytes
  obtain ⟨marker, flag, chan, b2, b3, b4⟩ := f
  rcases hrows with ⟨rfl, hr⟩ | ⟨rfl, ht, hr⟩ | ⟨rfl, -, hr⟩ | ⟨rfl, hr⟩ | ⟨rfl, hr⟩ |
    ⟨rfl, hb, hr⟩ | ⟨rfl, hb, hr⟩ | ⟨rfl, hr⟩ | ⟨hf, hr⟩ | ⟨hf, hr⟩
  · simp [decodeFrame, hr, Instr.frame?]
  · rw [ht] at h2 h3 h4
    obtain ⟨rfl, rfl, rfl⟩ : 0#8 = b2 ∧ 0#8 = b3 ∧ 0#8 = b4 := ⟨h2, h3, h4⟩
    simp [decodeFrame, hr, Instr.frame?]
  · simp [decodeFrame, hr, Instr.frame?, h2, h3, h4]
  · simp [decodeFrame, hr, Instr.frame?]
  · simp [decodeFrame, hr, Instr.frame?]
  · simp [decodeFrame, hr, Instr.frame?, param_fields_append hb]
  · simp [decodeFrame, hr, Instr.frame?, badId_fields_append hb]
  · simp [decodeFrame, hr, Instr.frame?]
  · simp [decodeFrame, hr, Instr.frame?, flag67_append hf]
  · simp [decodeFrame, hr, Instr.frame?, flag8F_append hf]

end Sys2Proof

namespace Sys2Proof.Machine

/-! ### The step that completes a frame -/

/-- The record shows the six raw fields of the frame (R30, R117). -/
structure Output.ShowsRaw (o : Output) (f : Frame) : Prop where
  marker : o.fMarker = some f.marker
  flag : o.fFlag = some f.flag
  chan : o.fChan = some f.chan
  b2 : o.fB2 = some f.b2
  b3 : o.fB3 = some f.b3
  b4 : o.fB4 = some f.b4

theorem frameRecord_showsRaw (p : Params) (f : Frame) : (frameRecord p f).ShowsRaw f :=
  ⟨rfl, rfl, rfl, rfl, rfl, rfl⟩

/-- Every frame row is the completion of its own frame, and the decoded view it adds leaves the raw
fields alone. -/
theorem exec_eq_completeFrame {i : Instr} {f : Frame} (h : i.frame? = some f) (s : State) :
    ∃ present after, exec i s = .next (completeFrame f present after s) ∧
      ∀ o : Output, o.ShowsRaw f → (present o).ShowsRaw f := by
  cases i <;> cases h <;>
    exact ⟨_, _, rfl, fun _ ⟨hm, hf, hc, h2, h3, h4⟩ => ⟨hm, hf, hc, h2, h3, h4⟩⟩

/-- In `RUN` a frame row leaves its five bytes in `buf` and its raw fields on the record (R103). -/
theorem exec_frame_of_run {i : Instr} {f : Frame} (h : i.frame? = some f) {s : State}
    (hrun : s.fpState = .run) :
    ∃ t, exec i s = .next t ∧ t.buf = frameBuffer f ∧ t.out.ShowsRaw f := by
  obtain ⟨present, after, hexec, hkeep⟩ := exec_eq_completeFrame h s
  rw [completeFrame_of_run f present after hrun] at hexec
  exact ⟨_, hexec, rfl, hkeep _ (frameRecord_showsRaw s.params f)⟩

/-! ### Collecting -/

/-- `FP_BYTE` for one of the first four bytes of a frame (R103). -/
theorem exec_fpByte_of_collecting (b : Byte) {s : State} (hrun : s.fpState = .run)
    (hcnt : s.cnt.val < 4) :
    exec (.fpByte b) s = .next (respond Output.quiet (storeByte b s)) := by
  simp [exec, execFpByte, hrun, hcnt]

/-- The fifth `FP_BYTE` executes the row the collected frame decodes to (R103). -/
theorem exec_fpByte_of_fifth (b : Byte) {s : State} (hrun : s.fpState = .run) (hcnt : s.cnt = 4) :
    exec (.fpByte b) s =
      exec (decodeFrame (frameOfBytes s.buf[0] s.buf[1] s.buf[2] s.buf[3] b)) s := by
  rw [← runFrame_eq_exec]
  simp [exec, execFpByte, hrun, hcnt]

/-- The parser with the first four bytes of a frame collected, in order of arrival (R46). -/
def fourCollected (b0 b1 b2 b3 : Byte) (s : State) : State :=
  { s with buf := #v[b0, b1, b2, b3, s.buf[4]], cnt := 4, out := Output.quiet }

/-- Four `FP_BYTE` from a frame boundary fill `buf[0]` to `buf[3]` one after another. -/
theorem execAll_fourBytes (b0 b1 b2 b3 : Byte) (rest : List Instr) {s : State}
    (hrun : s.fpState = .run) (hcnt : s.cnt = 0) :
    execAll (.fpByte b0 :: .fpByte b1 :: .fpByte b2 :: .fpByte b3 :: rest) s =
      execAll rest (fourCollected b0 b1 b2 b3 s) := by
  rw [execAll_cons_of_next (exec_fpByte_of_collecting b0 hrun (by simp [hcnt])),
    execAll_cons_of_next (exec_fpByte_of_collecting b1 (by simpa) (by simp [hcnt])),
    execAll_cons_of_next (exec_fpByte_of_collecting b2 (by simpa) (by simp [hcnt])),
    execAll_cons_of_next (exec_fpByte_of_collecting b3 (by simpa) (by simp [hcnt]))]
  congr 1
  apply State.eq_of_fields
  case buf =>
    ext i hi
    simp only [respond_buf, storeByte_buf, respond_cnt, storeByte_cnt, hcnt, fourCollected]
    interval_cases i <;> simp
  case cnt => simp [hcnt, fourCollected]
  all_goals rfl

/-- Five `FP_BYTE` from a frame boundary of a running parser leave their bytes in `buf` and the raw
fields of their frame on the record. -/
theorem execAll_fpFrame_of_run (b0 b1 b2 b3 b4 : Byte) {s : State} (hrun : s.fpState = .run)
    (hcnt : s.cnt = 0) :
    ∃ t, execAll (fpFrame b0 b1 b2 b3 b4) s = .next t ∧ t.buf = #v[b0, b1, b2, b3, b4] ∧
      t.out.ShowsRaw (frameOfBytes b0 b1 b2 b3 b4) := by
  have hrun4 : (fourCollected b0 b1 b2 b3 s).fpState = .run := hrun
  obtain ⟨t, hexec, hbuf, hraw⟩ :=
    exec_frame_of_run (decodeFrame_frame? (frameOfBytes b0 b1 b2 b3 b4)) hrun4
  refine ⟨t, ?_, ?_, hraw⟩
  · calc execAll (fpFrame b0 b1 b2 b3 b4) s
        = execAll [.fpByte b4] (fourCollected b0 b1 b2 b3 s) :=
          execAll_fourBytes b0 b1 b2 b3 _ hrun hcnt
      _ = .next t := by
          rw [execAll_cons_of_next ((exec_fpByte_of_fifth b4 hrun4 rfl).trans hexec), execAll_nil]
  · rw [hbuf, frameBuffer, frameOfBytes_byte1]
    rfl

/-- Settles O39: the bytes are collected in order, and the row they complete stores and shows them. -/
theorem frameBytesStandInOrderOfArrival : Obligations.FrameBytesStandInOrderOfArrival := by
  intro s b0 b1 b2 b3 b4 hrun hcnt
  obtain ⟨t, hexec, hbuf, hraw⟩ := execAll_fpFrame_of_run b0 b1 b2 b3 b4 hrun hcnt
  exact ⟨t, hexec, hbuf, hraw.marker, hraw.flag, hraw.chan, hraw.b2, hraw.b3, hraw.b4⟩

end Sys2Proof.Machine
end

