-- ==== Sys2Proof/Proofs/FlagMap.lean ====
section
/-! The flag map read off the word: which row a frame takes, what that row is called and, for the
unknown kinds, what it decodes to (R65). -/

namespace Sys2Proof

/-! ### The bits of the word the flag map looks at -/

theorem frameOfWord_tempo (F : FrameWord) : (frameOfWord F).tempo = F.extractLsb' 0 24 := by
  apply BitVec.eq_of_getLsbD_eq
  intro k hk
  simp only [Frame.tempo, frameOfWord, getLsbD_tempo, BitVec.getLsbD_extractLsb']
  interval_cases k <;> simp

theorem frameOfWord_b2_top (F : FrameWord) : (frameOfWord F).b2.getLsbD 7 = F.getLsbD 23 := by
  simp [frameOfWord]

/-! ### The row of a frame, one equation per line of the map -/

section
variable {f : Frame}

theorem frameRow_of_flag0 (h : f.flag = 0#4) : frameRow f = .key := by
  simp [frameRow, h]

theorem frameRow_of_flag1_zero (h : f.flag = 1#4) (ht : f.tempo = 0#24) :
    frameRow f = .tempoZero := by
  simp [frameRow, h, ht]

theorem frameRow_of_flag1_nonzero (h : f.flag = 1#4) (ht : f.tempo ≠ 0#24) :
    frameRow f = .tempo := by
  simp [frameRow, h, ht]

theorem frameRow_of_flag2 (h : f.flag = 2#4) : frameRow f = .endOfSequence := by
  simp [frameRow, h]

theorem frameRow_of_flag3 (h : f.flag = 3#4) : frameRow f = .nop := by
  simp [frameRow, h]

theorem frameRow_of_flag4_legal (h : f.flag = 4#4) (hb : f.b2.getLsbD 7 = false) :
    frameRow f = .param := by
  simpa [frameRow, h] using hb

theorem frameRow_of_flag4_bad (h : f.flag = 4#4) (hb : f.b2.getLsbD 7 = true) :
    frameRow f = .paramBadId := by
  simpa [frameRow, h] using hb

theorem frameRow_of_flag5 (h : f.flag = 5#4) : frameRow f = .skip := by
  simp [frameRow, h]

/-- The flags 6 to 15 make two rows, told apart by the flag's top bit. -/
theorem frameRow_of_six_le (h : 6 ≤ f.flag.toNat) :
    frameRow f = if f.flag.toNat < 8 then .unknown67 else .unknown8F := by
  have hflag : ∀ x : Nibble, 6 ≤ x.toNat → x ≠ 0#4 ∧ x ≠ 1#4 ∧ x ≠ 2#4 ∧ x ≠ 3#4 ∧ x ≠ 4#4 ∧
      x ≠ 5#4 ∧ x.getLsbD 3 = decide (8 ≤ x.toNat) := by
    decide
  obtain ⟨h0, h1, h2, h3, h4, h5, htop⟩ := hflag f.flag h
  simp only [frameRow, h0, h1, h2, h3, h4, h5, htop, decide_eq_true_eq, if_false, ← Nat.not_lt,
    ite_not]

end

/-! ### The name of a row -/

/-- The row's name in spec/opcode_table.json, for a row of format F. -/
def FrameRow.mnemonic : FrameRow → String
  | .key => "F.KEY"
  | .tempoZero => "F.TEMPO_ZERO"
  | .tempo => "F.TEMPO"
  | .endOfSequence => "F.END"
  | .nop => "F.NOP"
  | .param => "F.PARAM"
  | .paramBadId => "F.PARAM_BAD_ID"
  | .skip => "F.SKIP"
  | .unknown67 => "F.UNKNOWN_6_7"
  | .unknown8F => "F.UNKNOWN_8_F"

/-- The instruction a frame decodes to is named by the frame's row alone. -/
theorem decodeFrame_mnemonic (f : Frame) : (decodeFrame f).mnemonic = (frameRow f).mnemonic := by
  unfold decodeFrame
  cases frameRow f <;> rfl

end Sys2Proof

namespace Sys2Proof.Machine

/-! ### The result of the rows that reject or carry the flag -/

section
variable {f : Frame}

theorem frameDecode_of_flag1_zero (h : f.flag = 1#4) (ht : f.tempo = 0#24) :
    frameDecode f = .rejectTempoZero := by
  simp [frameDecode, h, ht]

theorem frameDecode_of_flag4_bad (h : f.flag = 4#4) (hb : f.b2.getLsbD 7 = true) :
    frameDecode f = .event (.unknown 4#4) := by
  simp only [frameDecode, h, hb]
  rfl

theorem frameDecode_of_six_le (h : 6 ≤ f.flag.toNat) :
    frameDecode f = .event (.unknown f.flag) := by
  obtain ⟨n, hn⟩ := Nat.exists_eq_add_of_le' h
  simp only [frameDecode, hn]

end

/-! ### The flag map -/

/-- The mnemonic of a word's instruction, once the row of its raw fields is known. -/
theorem frameInstr_mnemonic_of_row {F : FrameWord} {r : FrameRow}
    (h : frameRow (frameOfWord F) = r) : (Claims.frameInstr F).mnemonic = r.mnemonic := by
  rw [Claims.frameInstr, decodeFrame_mnemonic, h]

/-- Settles O13: the bits the map reads are the raw fields, and each line is the equation of its
row. -/
theorem flagMapSelectsFrameKind : Obligations.FlagMapSelectsFrameKind := by
  intro F
  have hflag : F.extractLsb' 28 4 = (frameOfWord F).flag := rfl
  rw [hflag, ← frameOfWord_tempo, ← frameOfWord_b2_top]
  refine ⟨fun h => ?key, fun ⟨h, ht⟩ => ?tempo, fun ⟨h, ht⟩ => ⟨?tempoZero, ?rejected⟩,
    fun h => ?endOfSequence, fun h => ?nop, fun ⟨h, hb⟩ => ?param,
    fun ⟨h, hb⟩ => ⟨?badId, ?badIdEvent⟩, fun h => ?skip, fun h => ⟨?unknown, ?unknownEvent⟩⟩
  case key => exact frameInstr_mnemonic_of_row (frameRow_of_flag0 h)
  case tempo => exact frameInstr_mnemonic_of_row (frameRow_of_flag1_nonzero h ht)
  case tempoZero => exact frameInstr_mnemonic_of_row (frameRow_of_flag1_zero h ht)
  case rejected => exact frameDecode_of_flag1_zero h ht
  case endOfSequence => exact frameInstr_mnemonic_of_row (frameRow_of_flag2 h)
  case nop => exact frameInstr_mnemonic_of_row (frameRow_of_flag3 h)
  case param => exact frameInstr_mnemonic_of_row (frameRow_of_flag4_legal h hb)
  case badId => exact frameInstr_mnemonic_of_row (frameRow_of_flag4_bad h hb)
  case badIdEvent => exact frameDecode_of_flag4_bad h hb
  case skip => exact frameInstr_mnemonic_of_row (frameRow_of_flag5 h)
  case unknown =>
    rw [frameInstr_mnemonic_of_row (frameRow_of_six_le h), apply_ite FrameRow.mnemonic]
    rfl
  case unknownEvent => exact frameDecode_of_six_le h

end Sys2Proof.Machine
end

