-- ==== Sys2Proof/Proofs/CrcBlocks.lean ====
section
/-! What a sequence of `CRC_BLOCK` sends (R72, R92, R93): sequences are cut at their seams, the
bytes of a payload are silent, and the clear at the head of a Block forgets all that ran before. -/

namespace Sys2Proof.Machine

/-! ### Sequences end to end -/

theorem execAll_cons_eq_next {i : Instr} {rest : List Instr} {s t : State} :
    execAll (i :: rest) s = .next t ↔ ∃ u, exec i s = .next u ∧ execAll rest u = .next t := by
  cases h : exec i s <;> simp [execAll, h]

@[simp] theorem outputsOf_nil (s : State) : outputsOf [] s = [] := rfl

/-- A sequence that answers hands its end state to what follows it. -/
theorem execAll_append_of_next {is : List Instr} {s t : State} (h : execAll is s = .next t)
    (rest : List Instr) : execAll (is ++ rest) s = execAll rest t := by
  induction is generalizing s with
  | nil => cases h; rfl
  | cons i is ih =>
    obtain ⟨u, hi, his⟩ := execAll_cons_eq_next.mp h
    rw [List.cons_append, execAll_cons_of_next hi, ih his]

theorem outputsOf_append_of_next {is : List Instr} {s t : State} (h : execAll is s = .next t)
    (rest : List Instr) : outputsOf (is ++ rest) s = outputsOf is s ++ outputsOf rest t := by
  induction is generalizing s with
  | nil => cases h; rfl
  | cons i is ih =>
    obtain ⟨u, hi, his⟩ := execAll_cons_eq_next.mp h
    rw [List.cons_append, outputsOf_cons_of_next hi, outputsOf_cons_of_next hi, ih his,
      List.cons_append]

@[simp] theorem sentBytes_nil : sentBytes [] = [] := rfl

@[simp] theorem sentBytes_cons (o : Output) (os : List Output) :
    sentBytes (o :: os) = o.tx ++ sentBytes os := List.flatMap_cons

@[simp] theorem sentBytes_append (os os' : List Output) :
    sentBytes (os ++ os') = sentBytes os ++ sentBytes os' := List.flatMap_append

@[simp] theorem Output.quiet_tx : Output.quiet.tx = [] := rfl

/-! ### The operations of a Block -/

theorem exec_crcClr (s : State) :
    exec .crcClr s = .next (respond Output.quiet (writeCrc Config.crcInit s)) := rfl

theorem exec_crcByte (b : Byte) (s : State) :
    exec (.crcByte b) s = .next (respond Output.quiet (writeCrc (crcByte s.crc b) s)) := rfl

theorem exec_crcRd (s : State) :
    exec .crcRd s = .next (respond { Output.quiet with tx := Claims.crcPair s.crc } s) := rfl

/-- The bytes of a message write nothing but the register and the record (R90). -/
theorem execAll_crcBytes (m : List Byte) (s : State) :
    ∃ o, execAll (crcBytes m) s = .next (respond o (writeCrc (crcFrom s.crc m) s)) := by
  induction m generalizing s with
  | nil => exact ⟨s.out, rfl⟩
  | cons b m ih =>
    obtain ⟨o, ho⟩ := ih (respond Output.quiet (writeCrc (crcByte s.crc b) s))
    exact ⟨o, (execAll_cons_of_next (exec_crcByte b s) _).trans ho⟩

/-- The bytes of a message send nothing (R90). -/
theorem sentBytes_crcBytes (m : List Byte) (s : State) :
    sentBytes (outputsOf (crcBytes m) s) = [] := by
  induction m generalizing s with
  | nil => rfl
  | cons b m ih =>
    have hfirst : outputsOf (crcBytes (b :: m)) s = Output.quiet :: outputsOf (crcBytes m) _ :=
      outputsOf_cons_of_next (exec_crcByte b s) _
    simp [hfirst, ih]

/-! ### Blocks -/

/-- The clear and the payload leave the CRC of the payload in the register, whatever it held before
(R92). -/
theorem execAll_crcClr_crcBytes (p : List Byte) (s : State) :
    ∃ o, execAll (.crcClr :: crcBytes p) s = .next (respond o (writeCrc (crcOf p) s)) := by
  obtain ⟨o, ho⟩ := execAll_crcBytes p (respond Output.quiet (writeCrc Config.crcInit s))
  exact ⟨o, (execAll_cons_of_next (exec_crcClr s) _).trans ho⟩

/-- A Block answers, with its CRC in the register and on the record and all else as it was (R92). -/
theorem execAll_crcBlock (p : List Byte) (s : State) :
    execAll (crcBlock p) s = .next
      (respond { Output.quiet with tx := Claims.crcPair (crcOf p) } (writeCrc (crcOf p) s)) := by
  obtain ⟨o, ho⟩ := execAll_crcClr_crcBytes p s
  exact (execAll_append_of_next ho [.crcRd]).trans (execAll_cons_of_next (exec_crcRd _) [])

/-- Of a Block's operations the read alone sends: the two bytes of the payload's CRC (R91, R92). -/
theorem sentBytes_crcBlock (p : List Byte) (s : State) :
    sentBytes (outputsOf (crcBlock p) s) = Claims.crcPair (crcOf p) := by
  obtain ⟨o, ho⟩ := execAll_crcClr_crcBytes p s
  have hseam : outputsOf (crcBlock p) s =
      outputsOf (.crcClr :: crcBytes p) s ++ outputsOf [.crcRd] _ :=
    outputsOf_append_of_next ho [.crcRd]
  rw [hseam, outputsOf_cons_of_next (exec_crcClr s), outputsOf_cons_of_next (exec_crcRd _)]
  simp [sentBytes_crcBytes]

/-- Settles O27, by induction on the payloads: the first Block sends its own CRC and answers, and
the others send theirs from whatever state it leaves. -/
theorem eachBlockCarriesItsOwnCrc : Obligations.EachBlockCarriesItsOwnCrc := by
  intro s ps
  induction ps generalizing s with
  | nil => rfl
  | cons p ps ih =>
    rw [List.flatMap_cons, List.flatMap_cons, outputsOf_append_of_next (execAll_crcBlock p s),
      sentBytes_append, sentBytes_crcBlock, ih]

end Sys2Proof.Machine
end

