-- ==== Sys2Proof/Proofs/CompletedFrame.lean ====
section
/-! The step of the fifth byte. The frame it completes is the collected word `F`, and the record it
answers is the frame's raw fields with one view added: the view of `decode(F)` (R103, R115, R117,
R127). What the record shows and forwards is then read off `decode(F)` alone. -/

namespace Sys2Proof

/-! ### The word of five bytes -/

/-- The word of the frame five bytes spell is the bytes end to end (R63). -/
theorem frameOfBytes_word (b0 b1 b2 b3 b4 : Byte) :
    (frameOfBytes b0 b1 b2 b3 b4).word = b0 ++ b1 ++ b2 ++ b3 ++ b4 := by
  apply BitVec.eq_of_getLsbD_eq
  intro k hk
  simp only [Frame.word_getLsbD, frameOfBytes, highNibble, lowNibble, BitVec.getLsbD_extractLsb',
    BitVec.getLsbD_append]
  interval_cases k <;> simp

end Sys2Proof

namespace Sys2Proof.Machine

/-- The raw fields of the collected word are those of the five bytes (R46, R103). -/
theorem frameOfWord_collectedWord (s : State) (b : Byte) :
    frameOfWord (Claims.collectedWord s b) =
      frameOfBytes s.buf[0] s.buf[1] s.buf[2] s.buf[3] b := by
  rw [Claims.collectedWord, ← frameOfBytes_word, frameOfWord_word]

theorem frameOfWord_paramId (F : FrameWord) :
    frameParamId (frameOfWord F) = F.extractLsb' 20 4 := by
  apply BitVec.eq_of_getLsbD_eq
  intro k hk
  simp only [frameParamId, frameOfWord, highNibble, BitVec.getLsbD_extractLsb']
  interval_cases k <;> simp

theorem frameOfWord_slot (F : FrameWord) : frameSlot (frameOfWord F) = F.extractLsb' 16 4 := by
  apply BitVec.eq_of_getLsbD_eq
  intro k hk
  simp only [frameSlot, frameOfWord, lowNibble, BitVec.getLsbD_extractLsb']
  interval_cases k <;> simp

/-- With the top bit of `byte[2]` clear, the three bits of a legal sub-id are its high nibble (R64). -/
theorem paramIdField_of_b2_top {f : Frame} (h : f.b2.getLsbD 7 = false) :
    paramIdField (f.b2.extractLsb' 4 3) = frameParamId f := by
  apply BitVec.eq_of_getLsbD_eq
  intro k hk
  simp only [paramIdField, frameParamId, highNibble, getLsbD_flag8F, BitVec.getLsbD_extractLsb']
  interval_cases k <;> simp_all

/-! ### The result of each row, in the operands of its instruction -/

section
variable {f : Frame}

theorem frameDecode_of_flag0 (h : f.flag = 0#4) :
    frameDecode f = .event (.key f.chan f.b3 f.b4) := by
  simp [frameDecode, h]

theorem frameDecode_of_flag1_nonzero (h : f.flag = 1#4) (ht : f.tempo ≠ 0#24) :
    frameDecode f = .event (.tempo f.tempo) := by
  simp [frameDecode, h, ht]

theorem frameDecode_of_flag2 (h : f.flag = 2#4) : frameDecode f = .event .endOfSequence := by
  simp [frameDecode, h]

theorem frameDecode_of_flag3 (h : f.flag = 3#4) : frameDecode f = .event .nop := by
  simp [frameDecode, h]

theorem frameDecode_of_flag4_legal (h : f.flag = 4#4) (hb : f.b2.getLsbD 7 = false) :
    frameDecode f =
      .event (.param (lowNibble f.b2) (paramIdField (f.b2.extractLsb' 4 3)) f.b3) := by
  simp only [frameDecode, h, hb, paramIdField_of_b2_top hb]
  rfl

theorem frameDecode_of_flag5 (h : f.flag = 5#4) : frameDecode f = .event .skipTrack := by
  simp [frameDecode, h]

theorem frameDecode_of_flag67 (h : f.flag = 6#4 ∨ f.flag = 7#4) :
    frameDecode f = .event (.unknown (flagOf67 (f.flag.extractLsb' 0 1))) := by
  rw [frameDecode_of_six_le (by rcases h with h | h <;> simp [h]), flagOf67, flag67_append h]

theorem frameDecode_of_flag8F (h : 8 ≤ f.flag.toNat) :
    frameDecode f = .event (.unknown (flagOf8F (f.flag.extractLsb' 0 3))) := by
  rw [frameDecode_of_six_le (by omega), flagOf8F, flag8F_append h]

end

/-! ### The view of a result -/

/-- What a result adds to the record of its frame: the event fields it has and, but for Nop, the
strobe that announces it (R116, R118 to R126). -/
def DecodeResult.view : DecodeResult → Output → Output
  | .event (.key _ key velocity), o => forward { o with
      evKind := some .key, key := some key, velocity := some velocity,
      noteOn := some (noteOn velocity) }
  | .event (.tempo tempo), o => forward { o with evKind := some .tempo, tempo := some tempo }
  | .event .endOfSequence, o => forward { o with evKind := some .endOfSequence }
  | .event .nop, o => { o with evKind := some .nop }
  | .event (.param slot paramId value), o => forward { o with
      evKind := some .param, paramId := some paramId, slot := some slot, value := some value }
  | .event .skipTrack, o => forward { o with evKind := some .skipTrack }
  | .event (.unknown flag), o => presentUnknown flag o
  | .rejectTempoZero, o => raise .tempoZero { o with evKind := some .tempo, tempo := some 0#24 }

/-- Where a result leaves the parser (R103, R121). -/
def DecodeResult.after : DecodeResult → FpState
  | .event .endOfSequence => .ended
  | _ => .run

/-- The row a frame decodes to completes that frame with the view of its result (R103). -/
theorem exec_decodeFrame (f : Frame) (s : State) :
    exec (decodeFrame f) s =
      .next (completeFrame f (frameDecode f).view (frameDecode f).after s) := by
  suffices hspelled : ∀ g, (decodeFrame f).frame? = some g → exec (decodeFrame f) s =
      .next (completeFrame g (frameDecode f).view (frameDecode f).after s) from
    hspelled f (decodeFrame_frame? f)
  rcases frameRow_cases f with ⟨h, hr⟩ | ⟨h, ht, hr⟩ | ⟨h, ht, hr⟩ | ⟨h, hr⟩ | ⟨h, hr⟩ |
    ⟨h, hb, hr⟩ | ⟨h, hb, hr⟩ | ⟨h, hr⟩ | ⟨h, hr⟩ | ⟨h, hr⟩ <;>
    simp only [decodeFrame, hr] <;> rintro _ ⟨⟩
  · rw [frameDecode_of_flag0 h]; rfl
  · rw [frameDecode_of_flag1_zero h ht]; rfl
  · rw [frameDecode_of_flag1_nonzero h ht]; rfl
  · rw [frameDecode_of_flag2 h]; rfl
  · rw [frameDecode_of_flag3 h]; rfl
  · rw [frameDecode_of_flag4_legal h hb]; rfl
  · rw [frameDecode_of_flag4_bad h hb]; rfl
  · rw [frameDecode_of_flag5 h]; rfl
  · rw [frameDecode_of_flag67 h]; rfl
  · rw [frameDecode_of_flag8F h]; rfl

/-- The step of the fifth byte, in full: the record is the raw fields of the collected word and the
view of what it decodes to (R103). -/
theorem exec_fpByte_eq_completed (b : Byte) {s : State} (hrun : s.fpState = .run)
    (hcnt : s.cnt = 4) {f : Frame} (hf : frameOfWord (Claims.collectedWord s b) = f) :
    exec (.fpByte b) s =
      .next (respond ((frameDecode f).view (frameRecord s.params f))
        (setParser (frameDecode f).after (storeFrame f s))) := by
  rw [exec_fpByte_of_fifth b hrun hcnt, ← frameOfWord_collectedWord, hf, exec_decodeFrame,
    completeFrame_of_run _ _ _ hrun]

/-! ### What the record shows -/

/-- The operands of a result are the named bits of its frame (R117 "views of the same bits"). -/
def DecodeResult.ReadFrom (f : Frame) : DecodeResult → Prop
  | .event (.key chan key velocity) => chan = f.chan ∧ key = f.b3 ∧ velocity = f.b4
  | .event (.tempo tempo) => tempo = f.tempo
  | .event (.param slot paramId value) =>
    slot = frameSlot f ∧ paramId = frameParamId f ∧ value = f.b3
  | .event (.unknown flag) => flag = f.flag
  | .event .endOfSequence | .event .nop | .event .skipTrack => True
  | .rejectTempoZero => f.tempo = 0#24

theorem frameDecode_readFrom (f : Frame) : (frameDecode f).ReadFrom f := by
  rcases frameRow_cases f with ⟨h, -⟩ | ⟨h, ht, -⟩ | ⟨h, ht, -⟩ | ⟨h, -⟩ | ⟨h, -⟩ |
    ⟨h, hb, -⟩ | ⟨h, hb, -⟩ | ⟨h, -⟩ | ⟨h, -⟩ | ⟨h, -⟩
  · rw [frameDecode_of_flag0 h]; exact ⟨rfl, rfl, rfl⟩
  · rw [frameDecode_of_flag1_zero h ht]; exact ht
  · rw [frameDecode_of_flag1_nonzero h ht]; rfl
  · rw [frameDecode_of_flag2 h]; trivial
  · rw [frameDecode_of_flag3 h]; trivial
  · rw [frameDecode_of_flag4_legal h hb]; exact ⟨rfl, paramIdField_of_b2_top hb, rfl⟩
  · rw [frameDecode_of_flag4_bad h hb]; exact h.symm
  · rw [frameDecode_of_flag5 h]; trivial
  · rw [frameDecode_of_flag67 h]; exact flag67_append h
  · rw [frameDecode_of_flag8F h]; exact flag8F_append h

/-- Each decoded field the record presents is the named bits of the frame (R117). -/
structure Output.ViewsFrame (o : Output) (f : Frame) : Prop where
  key : ∀ k, o.key = some k → k = f.b3
  velocity : ∀ v, o.velocity = some v → v = f.b4
  tempo : ∀ x, o.tempo = some x → x = f.tempo
  paramId : ∀ p, o.paramId = some p → p = frameParamId f
  slot : ∀ p, o.slot = some p → p = frameSlot f
  value : ∀ v, o.value = some v → v = f.b3
  unkFlag : ∀ x, o.unkFlag = some x → x = f.flag

section
variable (r : DecodeResult) (p : Params) (f : Frame)

theorem view_frameValid (o : Output) : (r.view o).frameValid = o.frameValid := by
  cases r with
  | event e => cases e <;> rfl
  | rejectTempoZero => rfl

theorem view_evValid : (r.view (frameRecord p f)).evValid = r.forwarded := by
  cases r with
  | event e => cases e <;> rfl
  | rejectTempoZero => rfl

theorem view_rejValid : (r.view (frameRecord p f)).rejValid = r.rejected := by
  cases r with
  | event e => cases e <;> rfl
  | rejectTempoZero => rfl

variable {r f}

/-- A view leaves the raw fields alone. -/
theorem view_showsRaw {o : Output} (h : o.ShowsRaw f) : (r.view o).ShowsRaw f := by
  obtain ⟨hm, hf, hc, h2, h3, h4⟩ := h
  cases r with
  | event e => cases e <;> exact ⟨hm, hf, hc, h2, h3, h4⟩
  | rejectTempoZero => exact ⟨hm, hf, hc, h2, h3, h4⟩

/-- The record of a frame has a decoded field only where the result has that operand. -/
theorem view_viewsFrame (h : r.ReadFrom f) : (r.view (frameRecord p f)).ViewsFrame f := by
  cases r with
  | event e =>
    cases e with
    | key =>
      obtain ⟨-, hkey, hvelocity⟩ := h
      constructor <;> rintro _ ⟨⟩
      exacts [hkey, hvelocity]
    | param =>
      obtain ⟨hslot, hparamId, hvalue⟩ := h
      constructor <;> rintro _ ⟨⟩
      exacts [hparamId, hslot, hvalue]
    | tempo | unknown =>
      constructor <;> rintro _ ⟨⟩
      exact h
    | endOfSequence | nop | skipTrack => constructor <;> rintro _ ⟨⟩
  | rejectTempoZero =>
    constructor <;> rintro _ ⟨⟩
    exact Eq.symm h

/-- A result is read back from the record that shows it; Key's channel is the raw field. -/
theorem view_presents (h : r.ReadFrom f) : (r.view (frameRecord p f)).presents = some r := by
  cases r with
  | event e =>
    cases e with
    | key =>
      obtain ⟨rfl, -, -⟩ := h
      rfl
    | tempo | endOfSequence | nop | param | skipTrack | unknown => rfl
  | rejectTempoZero => rfl

end

theorem DecodeResult.forwarded_iff (r : DecodeResult) :
    r.forwarded = true ↔ ∃ e, r = .event e ∧ e ≠ PlaybackEvent.nop := by
  cases r with
  | event e => cases e <;> simp [DecodeResult.forwarded]
  | rejectTempoZero => simp [DecodeResult.forwarded]

theorem DecodeResult.rejected_iff (r : DecodeResult) :
    r.rejected = true ↔ r = .rejectTempoZero := by
  cases r <;> simp [DecodeResult.rejected]

/-! ### No step reads the record of the one before -/

/-- The meaning of every instruction ends by writing the record anew (log 5). -/
theorem exec_respond (i : Instr) (o : Output) (s : State) : exec i (respond o s) = exec i s := by
  cases i <;> rfl

/-! ### The obligations -/

/-- Settles O51: the record is the collected word's raw fields with a view read from them. -/
theorem completedFramePresentsItsRawFields : Obligations.CompletedFramePresentsItsRawFields := by
  intro s b hrun hcnt
  have hstep := exec_fpByte_eq_completed b hrun hcnt rfl
  have hraw := view_showsRaw (r := frameDecode (frameOfWord (Claims.collectedWord s b)))
    (frameRecord_showsRaw s.params (frameOfWord (Claims.collectedWord s b)))
  have hviews := view_viewsFrame s.params
    (frameDecode_readFrom (frameOfWord (Claims.collectedWord s b)))
  rw [← frameOfWord_tempo, ← frameOfWord_paramId, ← frameOfWord_slot]
  exact ⟨_, hstep, view_frameValid _ _, hraw.marker, hraw.flag, hraw.chan, hraw.b2, hraw.b3,
    hraw.b4, hviews.key, hviews.velocity, hviews.tempo, hviews.paramId, hviews.slot, hviews.value,
    hviews.unkFlag⟩

/-- Settles O52: the record shows `decode(F)` and its strobes, and no operation reads it. -/
theorem completedFrameIsForwardedAtOnce : Obligations.CompletedFrameIsForwardedAtOnce := by
  intro s b hrun hcnt
  refine ⟨_, exec_fpByte_eq_completed b hrun hcnt rfl, view_frameValid _ _,
    view_presents _ (frameDecode_readFrom _), ?evValid, ?rejValid, fun i o => exec_respond i o _⟩
  case evValid => rw [respond_out, view_evValid]; exact DecodeResult.forwarded_iff _
  case rejValid => rw [respond_out, view_rejValid]; exact DecodeResult.rejected_iff _

end Sys2Proof.Machine
end

