-- ==== Sys2Proof/Proofs/RoundTrip.lean ====
section
/-! Encoder and decoder (R61, R63, R65, R67). An instruction spells a command word or a frame; what
it spells decodes to it, and a frame word is spelled by one well-formed instruction alone. -/

namespace Sys2Proof

/-! ### Format C: the operation of each opcode, whatever the data (R61, R62) -/

section
variable (data : Byte)

theorem decodeCmd_idle : decodeCmd (0x0#4 ++ data) = .idle := by
  simp [decodeCmd]

theorem decodeCmd_crcClr : decodeCmd (0x1#4 ++ data) = .crcClr := by
  simp [decodeCmd]

theorem decodeCmd_crcBit : decodeCmd (0x2#4 ++ data) = .crcBit (data.getLsbD 0) := by
  simp [decodeCmd, -BitVec.getLsbD_eq_getElem]

theorem decodeCmd_crcByte : decodeCmd (0x3#4 ++ data) = .crcByte data := by
  simp [decodeCmd]

theorem decodeCmd_crcRd : decodeCmd (0x4#4 ++ data) = .crcRd := by
  simp [decodeCmd]

theorem decodeCmd_reserved5 : decodeCmd (0x5#4 ++ data) = .reserved5 := by
  simp [decodeCmd]

theorem decodeCmd_reserved67 (o : BitVec 1) :
    decodeCmd ((0b011#3 ++ o : Nibble) ++ data) = .reserved67 o := by
  have ho : o = 0#1 ∨ o = 1#1 := by revert o; decide
  rcases ho with rfl | rfl <;> simp [decodeCmd]

theorem decodeCmd_fpStart : decodeCmd (0x8#4 ++ data) = .fpStart := by
  simp [decodeCmd]

theorem decodeCmd_fpStop : decodeCmd (0x9#4 ++ data) = .fpStop := by
  simp [decodeCmd]

theorem decodeCmd_fpByte : decodeCmd (0xA#4 ++ data) = .fpByte data := by
  simp [decodeCmd]

theorem decodeCmd_fpAbort :
    decodeCmd (0xB#4 ++ data) = .fpAbort (causeOfBit (data.getLsbD 0)) := by
  simp [decodeCmd, -BitVec.getLsbD_eq_getElem]

theorem decodeCmd_reservedCF (o : BitVec 2) :
    decodeCmd ((0b11#2 ++ o : Nibble) ++ data) = .reservedCF o := by
  have ho : o = 0#2 ∨ o = 1#2 ∨ o = 2#2 ∨ o = 3#2 := by revert o; decide
  rcases ho with rfl | rfl | rfl | rfl <;> simp [decodeCmd]

end

/-- The word an instruction of format C spells decodes to it (R61). -/
theorem decodeCmd_of_cmd? {i : Instr} {w : CmdWord} (h : i.cmd? = some w) : decodeCmd w = i := by
  cases i with
  | crcBit d => cases h; cases d <;> rfl
  | fpAbort cause => cases h; cases cause <;> rfl
  | crcByte b => cases h; exact decodeCmd_crcByte b
  | fpByte b => cases h; exact decodeCmd_fpByte b
  | reserved67 o => cases h; exact decodeCmd_reserved67 0#8 o
  | reservedCF o => cases h; exact decodeCmd_reservedCF 0#8 o
  | idle | crcClr | crcRd | reserved5 | fpStart | fpStop => cases h; rfl
  | _ => cases h

/-! ### Format F: the fields of a row, cut and put together again -/

theorem tempo_bytes_append (t : TempoWord) :
    t.extractLsb' 16 8 ++ t.extractLsb' 8 8 ++ t.extractLsb' 0 8 = t := by
  apply BitVec.eq_of_getLsbD_eq
  intro k hk
  simp only [getLsbD_tempo, BitVec.getLsbD_extractLsb']
  interval_cases k <;> simp

section
variable (id : BitVec 3) (slot : Nibble) (low : BitVec 7)

theorem param_byte_top : (0#1 ++ id ++ slot : Byte).getLsbD 7 = false := by
  rw [getLsbD_param]; rfl

theorem param_byte_id : (0#1 ++ id ++ slot : Byte).extractLsb' 4 3 = id := by
  apply BitVec.eq_of_getLsbD_eq
  intro k hk
  simp only [BitVec.getLsbD_extractLsb', getLsbD_param]
  interval_cases k <;> simp

theorem param_byte_slot : lowNibble (0#1 ++ id ++ slot) = slot := by
  apply BitVec.eq_of_getLsbD_eq
  intro k hk
  simp [lowNibble, getLsbD_param, -BitVec.getLsbD_eq_getElem, hk]

theorem badId_byte_top : (1#1 ++ low : Byte).getLsbD 7 = true := by
  rw [getLsbD_badId]; rfl

theorem badId_byte_low : (1#1 ++ low : Byte).extractLsb' 0 7 = low := by
  apply BitVec.eq_of_getLsbD_eq
  intro k hk
  simp only [BitVec.getLsbD_extractLsb', getLsbD_badId]
  interval_cases k <;> simp

end

theorem extract_flagOf67 : ∀ f : BitVec 1,
    (0b011#3 ++ f : Nibble).extractLsb' 0 1 = f := by
  decide

theorem extract_flagOf8F : ∀ f : BitVec 3, (1#1 ++ f : Nibble).extractLsb' 0 3 = f := by
  decide

/-- The frame a well-formed instruction of format F spells decodes to it (R65); the one ill-formed
frame instruction, `F.TEMPO` with the value 0, spells the frame of `F.TEMPO_ZERO`. -/
theorem decodeFrame_of_frame? {i : Instr} {f : Frame} (hwf : i.wellFormed = true)
    (h : i.frame? = some f) : decodeFrame f = i := by
  cases i with
  | fKey => cases h; rw [decodeFrame, frameRow_of_flag0 rfl]
  | fTempoZero => cases h; rw [decodeFrame, frameRow_of_flag1_zero rfl (by simp [Frame.tempo])]
  | fTempo marker chan tempo =>
    cases h
    have htempo : Frame.tempo ⟨marker, 1#4, chan, tempo.extractLsb' 16 8, tempo.extractLsb' 8 8,
      tempo.extractLsb' 0 8⟩ = tempo := tempo_bytes_append tempo
    have hnonzero : tempo ≠ 0#24 := by simpa [Instr.wellFormed] using hwf
    rw [decodeFrame, frameRow_of_flag1_nonzero rfl (by rwa [htempo]), htempo]
  | fEnd => cases h; rw [decodeFrame, frameRow_of_flag2 rfl]
  | fNop => cases h; rw [decodeFrame, frameRow_of_flag3 rfl]
  | fParam marker chan id slot =>
    cases h
    rw [decodeFrame, frameRow_of_flag4_legal rfl ?top]
    case top => exact param_byte_top id slot
    simp only [param_byte_id, param_byte_slot]
  | fParamBadId marker chan low =>
    cases h
    rw [decodeFrame, frameRow_of_flag4_bad rfl ?top]
    case top => exact badId_byte_top low
    simp only [badId_byte_low]
  | fSkip => cases h; rw [decodeFrame, frameRow_of_flag5 rfl]
  | fUnknown67 marker f =>
    cases h
    have hrange : ∀ f : BitVec 1, 6 ≤ (0b011#3 ++ f : Nibble).toNat ∧
      (0b011#3 ++ f : Nibble).toNat < 8 := by decide
    obtain ⟨hlow, hhigh⟩ := hrange f
    rw [decodeFrame, frameRow_of_six_le hlow, if_pos hhigh]
    simp only [extract_flagOf67]
  | fUnknown8F marker f =>
    cases h
    have hrange : ∀ f : BitVec 3, 8 ≤ (1#1 ++ f : Nibble).toNat := by decide
    have hlow := hrange f
    rw [decodeFrame, frameRow_of_six_le (le_trans (by decide) hlow), if_neg (by simpa using hlow)]
    simp only [extract_flagOf8F]
  | _ => cases h

/-- Every frame decodes to an instruction the encoding can spell: the zero value has a row of its
own (R65, R67). -/
theorem decodeFrame_wellFormed (f : Frame) : (decodeFrame f).wellFormed = true := by
  rcases frameRow_cases f with ⟨-, hr⟩ | ⟨-, -, hr⟩ | ⟨-, ht, hr⟩ | ⟨-, hr⟩ | ⟨-, hr⟩ |
    ⟨-, -, hr⟩ | ⟨-, -, hr⟩ | ⟨-, hr⟩ | ⟨-, hr⟩ | ⟨-, hr⟩ <;>
    rw [decodeFrame, hr]
  case inr.inr.inl => simpa [Instr.wellFormed] using ht
  all_goals rfl

theorem decodeFrame_isFrame (f : Frame) : (decodeFrame f).isFrame = true := by
  unfold decodeFrame
  cases frameRow f <;> rfl

/-! ### Bytes -/

/-- The two bytes of a command word are read as that word (log 11). -/
theorem decode_cmdBytes (w : CmdWord) : decode (cmdBytes w) = .ok (decodeCmd w) := by
  simp [decode, cmdBytes, ← cmd_eq_append]

/-- The five bytes of a frame are read as that frame (R46, R63). -/
theorem decode_frameBytes (f : Frame) : decode f.bytes = .ok (decodeFrame f) := by
  simp [decode, Frame.bytes]

theorem encode_of_cmd? {i : Instr} {w : CmdWord} (h : i.cmd? = some w) : encode i = cmdBytes w := by
  simp [encode, h]

theorem encode_of_frame? {i : Instr} {f : Frame} (h : i.frame? = some f) : encode i = f.bytes := by
  have hcmd : i.cmd? = none := by cases i <;> cases h <;> rfl
  simp [encode, hcmd, h]

/-- An instruction is of one of the two formats (R60, R63). -/
theorem Instr.spells (i : Instr) : (∃ w, i.cmd? = some w) ∨ (∃ f, i.frame? = some f) := by
  cases h : i.frame? with
  | some f => exact .inr ⟨f, rfl⟩
  | none => cases i <;> cases h <;> exact .inl ⟨_, rfl⟩

/-- Settles O9: a command word and a frame each come back from their bytes, and decode to the
instruction that spells them. -/
theorem decodeEncodeRoundTrip : Obligations.DecodeEncodeRoundTrip := by
  intro i hwf
  rcases i.spells with ⟨w, hw⟩ | ⟨f, hf⟩
  · rw [encode_of_cmd? hw, decode_cmdBytes, decodeCmd_of_cmd? hw]
  · rw [encode_of_frame? hf, decode_frameBytes, decodeFrame_of_frame? hwf hf]

/-- Settles O10: the word's own frame decodes to an instruction that spells it, and any well-formed
instruction that spells the word spells that frame. -/
theorem everyFrameWordHasOneMeaning : Obligations.EveryFrameWordHasOneMeaning := by
  intro F
  refine ⟨decodeFrame_wellFormed _, decodeFrame_isFrame _,
    ⟨_, decodeFrame_frame? _, word_frameOfWord F⟩, ?unique⟩
  rintro i hwf ⟨f, hf, rfl⟩
  rw [Claims.frameInstr, frameOfWord_word, decodeFrame_of_frame? hwf hf]

/-- Settles O8, by evaluating the decoder on the ten words. -/
theorem tabulatedWordsDecode : Obligations.TabulatedWordsDecode := by
  unfold Obligations.TabulatedWordsDecode
  decide

end Sys2Proof
end

