-- ==== Sys2Proof/Proofs/OpcodeTable.lean ====
section
/-! The opcode table and the decoder select the same row. Of a command word both read the opcode
alone (R61, R62); of a frame the table reads the flag, the top bit of `byte[2]` and whether the
tempo value is 0, which are the tests of the flag map (R65). -/

namespace Sys2Proof

/-! ### Format C -/

/-- Data bits the operation does not use change nothing (R62, D5). -/
theorem decodeCmd_eq_of_used_data {op : Nibble} {d d' : Byte} (h3 : op ≠ 0x3#4) (hA : op ≠ 0xA#4)
    (hbit : op = 0x2#4 ∨ op = 0xB#4 → d.getLsbD 0 = d'.getLsbD 0) :
    decodeCmd (op ++ d) = decodeCmd (op ++ d') := by
  by_cases h2 : op = 0x2#4
  · subst h2
    rw [decodeCmd_crcBit, decodeCmd_crcBit, hbit (.inl rfl)]
  by_cases hB : op = 0xB#4
  · subst hB
    rw [decodeCmd_fpAbort, decodeCmd_fpAbort, hbit (.inr rfl)]
  simp only [decodeCmd, cmdOp_append, h2, h3, hA, hB, if_false]

/-- Settles O12. -/
theorem unusedDataBitsChangeNothing : Obligations.UnusedDataBitsChangeNothing :=
  fun _ _ _ h3 hA hbit => decodeCmd_eq_of_used_data h3 hA hbit

theorem decodeCmd_mnemonic (w : CmdWord) :
    (decodeCmd w).mnemonic = (decodeCmd (cmdOp w ++ 0#8)).mnemonic := by
  simp only [decodeCmd, cmdOp_append, apply_ite Instr.mnemonic]
  rfl

theorem cmd_and (op op' : Nibble) (data data' : Byte) :
    (op ++ data : CmdWord) &&& (op' ++ data') = (op &&& op') ++ (data &&& data') :=
  BitVec.and_append

/-- No row of format C looks at the data. -/
theorem cmdTable_hits {r : TableRow 12} (hr : r ∈ cmdTable) (w : CmdWord) :
    r.hits w = r.hits (cmdOp w ++ 0#8) := by
  have hmask : ∀ r ∈ cmdTable, r.mask = cmdOp r.mask ++ 0#8 := by decide
  have hopcode : w &&& r.mask = (cmdOp w ++ 0#8) &&& r.mask := by
    rw [hmask r hr, cmd_and]
    nth_rw 1 [cmd_eq_append w]
    rw [cmd_and, BitVec.and_zero, BitVec.and_zero]
  rw [TableRow.hits, hopcode, TableRow.hits]

/-- The table and the decoder agree on every opcode. -/
theorem cmdTable_find?_opcode : ∀ op : Nibble,
    (cmdTable.find? (fun r => r.hits (op ++ 0#8))).map (fun r => r.mnemonic) =
      some (decodeCmd (op ++ 0#8)).mnemonic := by
  decide

theorem cmdTable_find? (w : CmdWord) :
    (cmdTable.find? (fun r => r.hits w)).map (fun r => r.mnemonic) =
      some (decodeCmd w).mnemonic := by
  rw [List.find?_congr (fun r hr => cmdTable_hits hr w), cmdTable_find?_opcode,
    ← decodeCmd_mnemonic]

/-! ### Format F -/

/-- The bits of a frame that a mask selects, field by field. -/
def Frame.masked (f m : Frame) : Frame :=
  ⟨f.marker &&& m.marker, f.flag &&& m.flag, f.chan &&& m.chan, f.b2 &&& m.b2, f.b3 &&& m.b3,
    f.b4 &&& m.b4⟩

theorem frameOfWord_and (F M : FrameWord) :
    frameOfWord (F &&& M) = (frameOfWord F).masked (frameOfWord M) := by
  simp [frameOfWord, Frame.masked, BitVec.extractLsb'_and]

/-- A word hits a row when its raw fields do. -/
theorem TableRow.hits_eq_masked (r : TableRow 40) (F : FrameWord) :
    r.hits F = decide ((frameOfWord F).masked (frameOfWord r.mask) = frameOfWord r.pattern) := by
  have hfields : F &&& r.mask = r.pattern ↔ frameOfWord (F &&& r.mask) = frameOfWord r.pattern :=
    ⟨fun h => by rw [h], fun h => by rw [← word_frameOfWord (F &&& r.mask), h, word_frameOfWord]⟩
  rw [TableRow.hits, ← frameOfWord_and, ← decide_eq_decide.mpr hfields]
  rfl

theorem Frame.tempo_eq_zero_iff (f : Frame) :
    f.tempo = 0#24 ↔ f.b2 = 0#8 ∧ f.b3 = 0#8 ∧ f.b4 = 0#8 := by
  constructor
  · intro ht
    obtain ⟨h2, h3, h4⟩ := f.tempo_bytes
    rw [ht] at h2 h3 h4
    exact ⟨h2.symm, h3.symm, h4.symm⟩
  · rintro ⟨h2, h3, h4⟩
    simp [Frame.tempo, h2, h3, h4]

/-- The masks a row lays on the flag. -/
theorem flag_masked : ∀ flag : Nibble, flag &&& 15#4 = flag ∧
    (flag &&& 14#4 = 6#4 ↔ flag = 6#4 ∨ flag = 7#4) ∧ (flag &&& 8#4 = 8#4 ↔ 8 ≤ flag.toNat) := by
  decide

/-- The masks a row lays on a payload byte. -/
theorem payload_masked : ∀ b : Byte, b &&& 255#8 = b ∧
    (b &&& 128#8 = 0#8 ↔ b.getLsbD 7 = false) ∧ (b &&& 128#8 = 128#8 ↔ b.getLsbD 7 = true) := by
  decide

/-- What each row of format F asks of a frame's fields, in the table's order. -/
theorem frameTable_hits (F : FrameWord) (f : Frame) (hF : frameOfWord F = f) :
    frameTable.map (fun r => r.hits F) =
      [decide (f.flag = 0#4), decide (f.flag = 1#4 ∧ f.tempo = 0#24), decide (f.flag = 1#4),
        decide (f.flag = 2#4), decide (f.flag = 3#4),
        decide (f.flag = 4#4 ∧ f.b2.getLsbD 7 = false),
        decide (f.flag = 4#4 ∧ f.b2.getLsbD 7 = true), decide (f.flag = 5#4),
        decide (f.flag = 6#4 ∨ f.flag = 7#4), decide (8 ≤ f.flag.toNat)] := by
  obtain ⟨hflag, hflag67, hflag8F⟩ := flag_masked f.flag
  obtain ⟨-, htop0, htop1⟩ := payload_masked f.b2
  have hbyte : ∀ b : Byte, b &&& 255#8 = b := fun b => (payload_masked b).1
  simp only [frameTable, List.map, TableRow.hits_eq_masked, hF, ← hflag67, ← hflag8F, ← htop0,
    ← htop1, f.tempo_eq_zero_iff]
  simp [Frame.masked, frameOfWord, hflag, hbyte]

/-- The first row a word hits is the row its flag map selects (R65). -/
theorem frameTable_find? (F : FrameWord) :
    (frameTable.find? (fun r => r.hits F)).map (fun r => r.mnemonic) =
      some (frameRow (frameOfWord F)).mnemonic := by
  have hhits := frameTable_hits F _ rfl
  simp only [frameTable, List.map, List.cons.injEq] at hhits
  obtain ⟨hkey, hzero, htempo, hend, hnop, hparam, hbad, hskip, h67, h8F, -⟩ := hhits
  simp only [frameTable, List.find?_cons, hkey, hzero, htempo, hend, hnop, hparam, hbad, hskip, h67,
    h8F]
  rcases frameRow_cases (frameOfWord F) with ⟨hf, hr⟩ | ⟨hf, ht, hr⟩ | ⟨hf, ht, hr⟩ | ⟨hf, hr⟩ |
    ⟨hf, hr⟩ | ⟨hf, hb, hr⟩ | ⟨hf, hb, hr⟩ | ⟨hf, hr⟩ | ⟨hf | hf, hr⟩ | ⟨hf, hr⟩ <;>
    rw [hr, FrameRow.mnemonic]
  · simp [hf]
  · simp [hf, ht]
  · simp [hf, ht]
  · simp [hf]
  · simp [hf]
  · simp [hf, hb, -BitVec.getLsbD_eq_getElem]
  · simp [hf, hb, -BitVec.getLsbD_eq_getElem]
  · simp [hf]
  · simp [hf]
  · simp [hf]
  · have hne : ∀ k : Nibble, k.toNat < 8 → (frameOfWord F).flag ≠ k := by
      rintro k hk rfl; omega
    simp [hne, hf]

/-- Settles O11, format by format. -/
theorem firstMatchingTableRowIsDecoded : Obligations.FirstMatchingTableRowIsDecoded := by
  refine ⟨cmdTable_find?, fun F => ?_⟩
  rw [frameTable_find?, Claims.frameInstr, decodeFrame_mnemonic]

end Sys2Proof
end

