-- ==== Sys2Proof/Proofs/Operations.lean ====
section
/-! What each operation of format C does, one equation per case of its meaning, and the statements
that are these equations with the state written out. -/

namespace Sys2Proof.Machine

/-! ### Common operations -/

theorem exec_idle (s : State) : exec .idle s = .next (respond Output.quiet s) := rfl

theorem exec_reserved5 (s : State) : exec .reserved5 s = .next (report .badOp s) := rfl

theorem exec_reserved67 (o : BitVec 1) (s : State) :
    exec (.reserved67 o) s = .next (report .badOp s) := rfl

theorem exec_reservedCF (o : BitVec 2) (s : State) :
    exec (.reservedCF o) s = .next (report .badOp s) := rfl

/-- The seven reserved opcodes are those of the three reserved rows (R61, R81). -/
theorem decodeCmd_reserved {op : Nibble}
    (h : op ∈ [0x5#4, 0x6#4, 0x7#4, 0xC#4, 0xD#4, 0xE#4, 0xF#4]) (data : Byte) :
    decodeCmd (op ++ data) = .reserved5 ∨ (∃ o, decodeCmd (op ++ data) = .reserved67 o) ∨
      (∃ o, decodeCmd (op ++ data) = .reservedCF o) := by
  have hrows : ∀ op ∈ [0x5#4, 0x6#4, 0x7#4, 0xC#4, 0xD#4, 0xE#4, 0xF#4],
      op = 0x5#4 ∨ (∃ o : BitVec 1, op = 0b011#3 ++ o) ∨ (∃ o : BitVec 2, op = 0b11#2 ++ o) := by
    decide
  rcases hrows op h with rfl | ⟨o, rfl⟩ | ⟨o, rfl⟩
  · exact .inl (decodeCmd_reserved5 data)
  · exact .inr (.inl ⟨o, decodeCmd_reserved67 data o⟩)
  · exact .inr (.inr ⟨o, decodeCmd_reservedCF data o⟩)

/-- Settles O28. -/
theorem idleChangesNothing : Obligations.IdleChangesNothing := ⟨decodeCmd_idle, exec_idle⟩

/-- Settles O29: the seven opcodes are three rows, and each row reports `BadOp`. -/
theorem reservedOpcodesOnlyRaiseBadOp : Obligations.ReservedOpcodesOnlyRaiseBadOp := by
  refine ⟨exec_reserved5, fun s o => exec_reserved67 o s, fun s o => exec_reservedCF o s,
    fun s op data hop => ?_⟩
  rcases decodeCmd_reserved hop data with h | ⟨o, h⟩ | ⟨o, h⟩ <;> rw [h]
  · exact exec_reserved5 s
  · exact exec_reserved67 o s
  · exact exec_reservedCF o s

/-! ### Unit CRCG -/

theorem exec_crcBit (d : Bool) (s : State) :
    exec (.crcBit d) s = .next (respond Output.quiet (writeCrc (crcBit s.crc d) s)) := rfl

/-- Settles O15. -/
theorem crcClrClearsTheRegister : Obligations.CrcClrClearsTheRegister :=
  ⟨decodeCmd_crcClr, exec_crcClr⟩

/-- Settles O16. -/
theorem crcBitAbsorbsOneBit : Obligations.CrcBitAbsorbsOneBit :=
  ⟨decodeCmd_crcBit, fun s d => exec_crcBit d s⟩

/-- Settles O17. -/
theorem crcByteAbsorbsOneByte : Obligations.CrcByteAbsorbsOneByte :=
  ⟨decodeCmd_crcByte, fun s b => exec_crcByte b s⟩

/-- Settles O18: the first read answers the state it found, so the second sends the same bytes. -/
theorem crcRdSendsHighByteFirst : Obligations.CrcRdSendsHighByteFirst := by
  refine ⟨decodeCmd_crcRd, exec_crcRd, fun s => ?twice⟩
  case twice =>
    rw [outputsOf_cons_of_next (exec_crcRd s), outputsOf_cons_of_next (exec_crcRd _)]
    simp

/-- The bits of a message, one operation each, leave the register as the fold of the bit step and
all else as it was. -/
theorem execAll_crcBit (d : Bool) (ds : List Bool) (s : State) :
    execAll ((d :: ds).map .crcBit) s =
      .next (respond Output.quiet (writeCrc ((d :: ds).foldl crcBit s.crc) s)) := by
  induction ds generalizing d s with
  | nil => exact execAll_cons_of_next (exec_crcBit d s) []
  | cons e ds ih => exact (execAll_cons_of_next (exec_crcBit d s) _).trans (ih e _)

/-- Settles O21: the eight operations fold the bit step over the byte, which is the byte step. -/
theorem crcByteEqualsEightCrcBits : Obligations.CrcByteEqualsEightCrcBits :=
  fun s b => execAll_crcBit (b.getLsbD 7) ([6, 5, 4, 3, 2, 1, 0].map b.getLsbD) s

/-- Settles O26. -/
theorem crcBlockSendsTheCrcOfItsPayload : Obligations.CrcBlockSendsTheCrcOfItsPayload :=
  fun s p => ⟨execAll_crcBlock p s, sentBytes_crcBlock p s⟩

/-! ### Unit FFP -/

theorem exec_fpStart (s : State) :
    exec .fpStart s = .next (respond Output.quiet (setParser .run s)) := rfl

theorem exec_fpStop (s : State) :
    exec .fpStop s = .next (respond Output.quiet (setParser .idle s)) := rfl

theorem exec_fpByte_outside (b : Byte) {s : State} (h : s.fpState ≠ .run) :
    exec (.fpByte b) s = .next (report .dropped s) := by
  simp [exec, execFpByte, h]

theorem exec_fpAbort_of_run (cause : ErrCause) {s : State} (h : s.fpState = .run) :
    exec (.fpAbort cause) s =
      .next (report (.readFailure cause) (setParser (afterAbort s.params.errPolicy) s)) := by
  simp [exec, execFpAbort, h]

theorem exec_fpAbort_outside (cause : ErrCause) {s : State} (h : s.fpState ≠ .run) :
    exec (.fpAbort cause) s = .next (respond Output.quiet s) := by
  simp [exec, execFpAbort, h]

/-- Settles O30. -/
theorem fpStartRestartsFraming : Obligations.FpStartRestartsFraming :=
  ⟨decodeCmd_fpStart, exec_fpStart⟩

/-- Settles O31. -/
theorem fpStopDisablesTheParser : Obligations.FpStopDisablesTheParser :=
  ⟨decodeCmd_fpStop, exec_fpStop⟩

/-- Settles O32. -/
theorem fpByteOutsideRunIsDropped : Obligations.FpByteOutsideRunIsDropped :=
  fun _ b h => exec_fpByte_outside b h

/-- Settles O33: below 4 the counter does not wrap, and the store touches one byte. -/
theorem fpByteStoresAtCnt : Obligations.FpByteStoresAtCnt := by
  intro s b hrun hcnt
  refine ⟨_, exec_fpByte_of_collecting b hrun hcnt, ?cnt, rfl, ?stored, ?kept, rfl, hrun, rfl, rfl,
    rfl⟩
  case cnt => exact Fin.val_add_one_of_lt' (by omega)
  case stored => simp
  case kept =>
    intro i hi
    have hne : s.cnt.val ≠ i.val := fun h => hi (Fin.ext h.symm)
    simp [hne]

/-- Settles O34. -/
theorem fifthFpByteRunsTheCollectedFrame : Obligations.FifthFpByteRunsTheCollectedFrame := by
  intro s b hrun hcnt
  rw [exec_fpByte_of_fifth b hrun hcnt, Claims.frameInstr, frameOfWord_collectedWord]

/-- Settles O35: the cause is `data[0]`, and each case is an equation of the meaning. -/
theorem fpAbortFollowsErrPolicy : Obligations.FpAbortFollowsErrPolicy := by
  refine ⟨decodeCmd_fpAbort, fun s cause hrun hpolicy => ?_, fun s cause hrun hpolicy => ?_,
    fun _ cause h => exec_fpAbort_outside cause h⟩
  · rw [exec_fpAbort_of_run cause hrun, hpolicy]
    rfl
  · rw [exec_fpAbort_of_run cause hrun, hpolicy, afterAbort, ← hrun]
    rfl

end Sys2Proof.Machine
end

