-- ==== Sys2Proof/Proofs/Effects.lean ====
section
/-! What an operation can do, said once as a relation between the state it finds and the state it
leaves. The frame of every instruction (R57), the transition table (R105) and what the record may
show (R32) are read off its cases. -/

namespace Sys2Proof

theorem Instr.isFfp_of_frame? {i : Instr} {f : Frame} (h : i.frame? = some f) : i.isFfp = true := by
  cases i <;> cases h <;> rfl

theorem Instr.isFrame_of_frame? {i : Instr} {f : Frame} (h : i.frame? = some f) :
    i.isFrame = true := by
  cases i <;> cases h <;> rfl

theorem Instr.exists_frame? {i : Instr} (h : i.isFrame = true) : ∃ f, i.frame? = some f := by
  cases i <;> cases h <;> exact ⟨_, rfl⟩

/-- No operation belongs to both units (R61). -/
theorem Instr.not_isFfp_of_isCrcg {i : Instr} (h : i.isCrcg = true) : i.isFfp = false := by
  cases i <;> cases h <;> rfl

theorem Instr.not_isCrcg_of_isFfp {i : Instr} (h : i.isFfp = true) : i.isCrcg = false := by
  cases i <;> cases h <;> rfl

theorem decodeCmd_isFrame (w : CmdWord) : (decodeCmd w).isFrame = false := by
  simp only [decodeCmd, apply_ite Instr.isFrame]
  simp only [Instr.isFrame, ite_self]

end Sys2Proof

namespace Sys2Proof.Machine

/-- The state an operation finds, the operation, and the state it leaves. -/
inductive Effect (s : State) : Instr → State → Prop
  /-- the operations of neither unit: silent, or `BadOp` (R80, R81) -/
  | common {i : Instr} {o : Output} : i.isCrcg = false → i.isFfp = false →
      o = Output.quiet ∨ o = raise .badOp Output.quiet → Effect s i (respond o s)
  /-- the operations of unit CRCG: the register, and bytes on `tx` (R88 to R91) -/
  | crcg {i : Instr} {c : CrcWord} {tx : List Byte} : i.isCrcg = true →
      Effect s i (respond { Output.quiet with tx := tx } (writeCrc c s))
  | started : Effect s .fpStart (respond Output.quiet (setParser .run s))
  | stopped : Effect s .fpStop (respond Output.quiet (setParser .idle s))
  | dropped {b : Byte} : s.fpState ≠ .run → Effect s (.fpByte b) (report .dropped s)
  | stored {b : Byte} : s.fpState = .run → s.cnt.val < 4 →
      Effect s (.fpByte b) (respond Output.quiet (storeByte b s))
  | completed {b : Byte} {f : Frame} : s.fpState = .run → s.cnt = 4 →
      f = frameOfBytes s.buf[0] s.buf[1] s.buf[2] s.buf[3] b →
      Effect s (.fpByte b) (respond ((frameDecode f).view (frameRecord s.params f))
        (setParser (frameDecode f).after (storeFrame f s)))
  | aborted {cause : ErrCause} : s.fpState = .run → Effect s (.fpAbort cause)
      (report (.readFailure cause) (setParser (afterAbort s.params.errPolicy) s))
  | ignored {cause : ErrCause} : s.fpState ≠ .run →
      Effect s (.fpAbort cause) (respond Output.quiet s)
  /-- the frame rows (log 6) -/
  | frame {i : Instr} {f : Frame} {present : Output → Output} {after : FpState} :
      i.frame? = some f → Effect s i (completeFrame f present after s)

theorem exec_fpByte_effect (b : Byte) (s : State) :
    ∃ t, exec (.fpByte b) s = .next t ∧ Effect s (.fpByte b) t := by
  by_cases hrun : s.fpState = .run
  · by_cases hcnt : s.cnt.val < 4
    · exact ⟨_, exec_fpByte_of_collecting b hrun hcnt, .stored hrun hcnt⟩
    · have hfifth : s.cnt = 4 := Fin.ext (by change s.cnt.val = 4; omega)
      exact ⟨_, exec_fpByte_eq_completed b hrun hfifth (frameOfWord_collectedWord s b),
        .completed hrun hfifth rfl⟩
  · exact ⟨_, exec_fpByte_outside b hrun, .dropped hrun⟩

theorem exec_fpAbort_effect (cause : ErrCause) (s : State) :
    ∃ t, exec (.fpAbort cause) s = .next t ∧ Effect s (.fpAbort cause) t := by
  by_cases hrun : s.fpState = .run
  · exact ⟨_, exec_fpAbort_of_run cause hrun, .aborted hrun⟩
  · exact ⟨_, exec_fpAbort_outside cause hrun, .ignored hrun⟩

/-- Every operation answers, and does what the relation says. -/
theorem exec_effect (i : Instr) (s : State) : ∃ t, exec i s = .next t ∧ Effect s i t := by
  cases hf : i.frame? with
  | some f =>
    obtain ⟨present, after, hexec, -⟩ := exec_eq_completeFrame hf s
    exact ⟨_, hexec, .frame hf⟩
  | none =>
    cases i with
    | idle => exact ⟨_, exec_idle s, .common rfl rfl (.inl rfl)⟩
    | reserved5 => exact ⟨_, exec_reserved5 s, .common rfl rfl (.inr rfl)⟩
    | reserved67 o => exact ⟨_, exec_reserved67 o s, .common rfl rfl (.inr rfl)⟩
    | reservedCF o => exact ⟨_, exec_reservedCF o s, .common rfl rfl (.inr rfl)⟩
    | crcClr => exact ⟨_, exec_crcClr s, .crcg (tx := []) rfl⟩
    | crcBit d => exact ⟨_, exec_crcBit d s, .crcg (tx := []) rfl⟩
    | crcByte b => exact ⟨_, exec_crcByte b s, .crcg (tx := []) rfl⟩
    | crcRd => exact ⟨_, exec_crcRd s, .crcg (c := s.crc) rfl⟩
    | fpStart => exact ⟨_, exec_fpStart s, .started⟩
    | fpStop => exact ⟨_, exec_fpStop s, .stopped⟩
    | fpByte b => exact exec_fpByte_effect b s
    | fpAbort cause => exact exec_fpAbort_effect cause s
    | _ => cases hf

section
variable {i : Instr} {s t : State}

theorem effect_of_exec (h : exec i s = .next t) : Effect s i t := by
  obtain ⟨u, hexec, heffect⟩ := exec_effect i s
  cases h.symm.trans hexec
  exact heffect

/-! ### The frame of every instruction -/

theorem Effect.crc_eq (h : Effect s i t) (hi : i.isCrcg = false) : t.crc = s.crc := by
  cases h with
  | crcg hcrcg => simp [hcrcg] at hi
  | frame => exact completeFrame_crc _ _ _ s
  | _ => rfl

theorem Effect.parser_eq (h : Effect s i t) (hi : i.isFfp = false) :
    t.buf = s.buf ∧ t.cnt = s.cnt ∧ t.fpState = s.fpState := by
  cases h with
  | common | crcg => exact ⟨rfl, rfl, rfl⟩
  | frame hf => simp [Instr.isFfp_of_frame? hf] at hi
  | _ => cases hi

theorem Effect.environment_eq (h : Effect s i t) :
    t.params = s.params ∧ t.pending = s.pending ∧ t.tick = s.tick := by
  cases h with
  | frame => exact ⟨completeFrame_params .., completeFrame_pending .., completeFrame_tick ..⟩
  | _ => exact ⟨rfl, rfl, rfl⟩

/-! ### The transition table -/

/-- The End frame, of flag 2, is the one that stops the parser (R103, R121). -/
theorem frameDecode_after (f : Frame) :
    (frameDecode f).after = if f.flag = 2#4 then .ended else .run := by
  by_cases hflag : f.flag = 2#4
  · rw [frameDecode_of_flag2 hflag, if_pos hflag]
    rfl
  · rw [if_neg hflag]
    unfold frameDecode
    split
    case h_3 h2 => exact absurd (BitVec.eq_of_toNat_eq h2) hflag
    case h_2 | h_5 => split <;> rfl
    all_goals rfl

theorem tables_of_not_ffp (s : State) (hi : i.isFfp = false) :
    Claims.tableFpState s i = s.fpState ∧ Claims.tableCnt s i = s.cnt.val := by
  cases i <;> cases hi <;> exact ⟨rfl, rfl⟩

theorem Effect.tables (h : Effect s i t) (hi : i.isFrame = false) :
    t.fpState = Claims.tableFpState s i ∧ t.cnt.val = Claims.tableCnt s i := by
  cases h with
  | common _ hffp _ =>
    obtain ⟨hfp, hcnt⟩ := tables_of_not_ffp s hffp
    exact ⟨hfp.symm, hcnt.symm⟩
  | crcg hcrcg =>
    obtain ⟨hfp, hcnt⟩ := tables_of_not_ffp s (Instr.not_isFfp_of_isCrcg hcrcg)
    exact ⟨hfp.symm, hcnt.symm⟩
  | started | stopped => exact ⟨rfl, rfl⟩
  | dropped hrun => simp [Claims.tableFpState, Claims.tableCnt, hrun, report]
  | stored hrun hcnt =>
    have hne : s.cnt ≠ 4 := by rintro h; simp [h] at hcnt
    have hval : (s.cnt + 1).val = s.cnt.val + 1 := Fin.val_add_one_of_lt' (by omega)
    simp [Claims.tableFpState, Claims.tableCnt, hrun, hcnt, hne, hval]
  | completed hrun hcnt hf =>
    subst hf
    simp [Claims.tableFpState, Claims.tableCnt, hrun, hcnt, frameDecode_after, frameOfBytes]
  | aborted hrun =>
    cases hpolicy : s.params.errPolicy <;>
      simp [Claims.tableFpState, Claims.tableCnt, hrun, report, afterAbort, hpolicy]
  | ignored hrun => simp [Claims.tableFpState, Claims.tableCnt, hrun]
  | frame hf => simp [Instr.isFrame_of_frame? hf] at hi

/-- Outside `RUN` nothing but `FP_START` opens the parser (R101, R105). -/
theorem Effect.stays_outside (h : Effect s i t) (hs : s.fpState ≠ .run) (hi : i ≠ .fpStart) :
    t.fpState ≠ .run := by
  cases h with
  | started => exact absurd rfl hi
  | stopped => simp
  | stored hrun | completed hrun | aborted hrun => exact absurd hrun hs
  | frame => rwa [completeFrame_outside _ _ _ hs]
  | _ => exact hs

end

/-! ### The obligations -/

/-- Settles O54. -/
theorem unitsWriteOnlyTheirOwnState : Obligations.UnitsWriteOnlyTheirOwnState := by
  intro i s
  obtain ⟨t, hexec, heffect⟩ := exec_effect i s
  exact ⟨t, hexec, heffect.crc_eq, heffect.parser_eq, heffect.environment_eq⟩

/-- Settles O36. -/
theorem parserFollowsItsTransitionTable : Obligations.ParserFollowsItsTransitionTable := by
  intro i s hi
  obtain ⟨t, hexec, heffect⟩ := exec_effect i s
  exact ⟨t, hexec, heffect.tables hi⟩

/-- Settles O37: outside `RUN` both operations leave the parser alone. -/
theorem endedAndFailedAreSticky : Obligations.EndedAndFailedAreSticky := by
  intro s hs
  have hrun : s.fpState ≠ .run := by rcases hs with h | h <;> simp [h]
  exact ⟨fun b => ⟨_, exec_fpByte_outside b hrun, rfl, rfl⟩,
    fun c => ⟨_, exec_fpAbort_outside c hrun, rfl, rfl⟩⟩

end Sys2Proof.Machine
end

