-- ==== Sys2Proof/Proofs/Invariant.lean ====
section
/-! The invariant of the block (R34) over one step. The record a step leaves is well-formed whatever
the state (R30, R32): it is silent, or reports one condition, or sends bytes, or is the view of a
frame. The parser's part follows from the transition table (R105). -/

namespace Sys2Proof.Machine

/-! ### Records -/

theorem wellFormed_of_tx (tx : List Byte) : Output.WellFormed { Output.quiet with tx := tx } := by
  refine ⟨?_, ?_, ?_⟩ <;> simp [StrobesRelated, DataUnderStrobes, ViewsAgree, Output.quiet]

/-- A condition reported alone; a zero tempo is never reported without its frame (R142). -/
theorem wellFormed_of_condition {c : Condition} (hc : c ≠ .tempoZero) :
    Output.WellFormed (raise c Output.quiet) := by
  cases c with
  | tempoZero => exact absurd rfl hc
  | _ =>
    refine ⟨?_, ?_, ?_⟩ <;> simp [StrobesRelated, DataUnderStrobes, ViewsAgree, Output.quiet, raise]

/-- A result is one a frame can have: its operands are the frame's, and a sub-id is at most 7. -/
def DecodeResult.Legal (f : Frame) (r : DecodeResult) : Prop :=
  r.ReadFrom f ∧ ∀ slot paramId value, r = .event (.param slot paramId value) → paramId.toNat ≤ 7

theorem paramIdField_toNat_le : ∀ p : BitVec 3, (paramIdField p).toNat ≤ 7 := by decide

theorem frameDecode_legal (f : Frame) : (frameDecode f).Legal f := by
  refine ⟨frameDecode_readFrom f, fun slot paramId value hparam => ?_⟩
  have hb2 : f.b2.getLsbD 7 = false ∧ paramId = frameParamId f := by
    unfold frameDecode at hparam
    split at hparam
    case h_2 => split at hparam <;> cases hparam
    case h_5 =>
      split at hparam
      case isTrue => cases hparam
      case isFalse h => cases hparam; exact ⟨by simpa using h, rfl⟩
    all_goals cases hparam
  obtain ⟨htop, rfl⟩ := hb2
  rw [← paramIdField_of_b2_top htop]
  exact paramIdField_toNat_le _

section
variable (p : Params) {f : Frame} {r : DecodeResult}

theorem view_strobesRelated : StrobesRelated (r.view (frameRecord p f)) := by
  cases r with
  | event e =>
    cases e <;>
      simp [StrobesRelated, DecodeResult.view, forward, presentUnknown, frameRecord, Output.quiet]
  | rejectTempoZero => simp [StrobesRelated, DecodeResult.view, raise, frameRecord, Output.quiet]

theorem view_dataUnderStrobes : DataUnderStrobes (r.view (frameRecord p f)) := by
  cases r with
  | event e =>
    cases e <;>
      simp [DataUnderStrobes, DecodeResult.view, forward, presentUnknown, frameRecord, Output.quiet]
  | rejectTempoZero => simp [DataUnderStrobes, DecodeResult.view, raise, frameRecord, Output.quiet]

theorem view_viewsAgree (h : r.Legal f) : ViewsAgree (r.view (frameRecord p f)) := by
  obtain ⟨hread, hparam⟩ := h
  cases r with
  | event e =>
    cases e with
    | key =>
      obtain ⟨-, rfl, rfl⟩ := hread
      refine ⟨?_, ?_, ?_, ?_⟩ <;> rintro _ ⟨⟩
      exacts [rfl, ⟨rfl, rfl⟩]
    | param slot paramId value =>
      refine ⟨?_, ?_, ?_, ?_⟩ <;> rintro _ ⟨⟩
      exact hparam slot paramId value rfl
    | unknown =>
      cases hread
      refine ⟨?_, ?_, ?_, ?_⟩ <;> rintro _ ⟨⟩
      rfl
    | tempo | endOfSequence | nop | skipTrack => refine ⟨?_, ?_, ?_, ?_⟩ <;> rintro _ ⟨⟩
  | rejectTempoZero => refine ⟨?_, ?_, ?_, ?_⟩ <;> rintro _ ⟨⟩

end

/-- The record of every operation of format C is one the table of R30 allows. -/
theorem Effect.wellFormed {i : Instr} {s t : State} (h : Effect s i t) (hi : i.isFrame = false) :
    Output.WellFormed t.out := by
  cases h with
  | common _ _ ho =>
    rcases ho with rfl | rfl
    · exact wellFormed_of_tx []
    · exact wellFormed_of_condition (by decide)
  | crcg => exact wellFormed_of_tx _
  | started | stopped | stored | ignored => exact wellFormed_of_tx []
  | dropped | aborted => exact wellFormed_of_condition (by simp)
  | completed =>
    exact ⟨view_strobesRelated _, view_dataUnderStrobes _, view_viewsAgree _ (frameDecode_legal _)⟩
  | frame hf => simp [Instr.isFrame_of_frame? hf] at hi

/-! ### One step -/

/-- A step is the reset step, or an operation of format C on the state with its input used up
(R82, R161). -/
theorem step_cases (s : State) :
    ((nextInput s).rst = true ∧ step s = .next (resetStep (takeInput s))) ∨
    ((nextInput s).rst = false ∧ ∃ t, step s = .next t ∧
      Effect (takeInput s) (decodeCmd (nextInput s).cmd) t) := by
  cases hrst : (nextInput s).rst with
  | true => exact .inl ⟨rfl, by simp [step, hrst]⟩
  | false =>
    obtain ⟨t, hexec, heffect⟩ := exec_effect (decodeCmd (nextInput s).cmd) (takeInput s)
    exact .inr ⟨rfl, t, by simp [step, hrst, hexec], heffect⟩

/-- Settles O5: the reset step is silent, and an operation's record is well-formed. -/
theorem everyStepAnswersAWellFormedRecord : Obligations.EveryStepAnswersAWellFormedRecord := by
  intro s
  rcases step_cases s with ⟨-, hstep⟩ | ⟨-, t, hstep, heffect⟩
  · exact ⟨_, hstep, wellFormed_of_tx [], rfl⟩
  · obtain ⟨hparams, -, -⟩ := heffect.environment_eq
    exact ⟨t, hstep, heffect.wellFormed (decodeCmd_isFrame _), hparams⟩

/-! ### The invariant -/

/-- By the table, bytes are collected in `RUN` alone (R34). -/
theorem tableFpState_of_tableCnt_ne_zero {s : State} {i : Instr} (hs : CntOnlyInRun s)
    (h : Claims.tableCnt s i ≠ 0) : Claims.tableFpState s i = .run := by
  have hkept : s.cnt.val ≠ 0 → s.fpState = .run := fun hcnt => hs (fun h0 => hcnt (by simp [h0]))
  cases i with
  | fpStart | fpStop => exact absurd rfl h
  | fpByte b =>
    by_cases hrun : s.fpState = .run
    · have hne : s.cnt ≠ 4 := by rintro h4; simp [Claims.tableCnt, hrun, h4] at h
      simp [Claims.tableFpState, hrun, hne]
    · simp only [Claims.tableCnt, hrun, if_false] at h
      exact absurd (hkept h) hrun
  | fpAbort cause =>
    by_cases hrun : s.fpState = .run
    · simp [Claims.tableCnt, hrun] at h
    · simp only [Claims.tableCnt, hrun, if_false] at h
      exact absurd (hkept h) hrun
  | _ => exact hkept h

/-- By the table, an abort alone leads to `FAILED`, and under `TERMINATE` alone (R34, R104). -/
theorem failed_of_tableFpState {s : State} {i : Instr}
    (h : Claims.tableFpState s i = .failed) :
    s.fpState = .failed ∨ s.params.errPolicy = .terminate := by
  cases i with
  | fpStart | fpStop => cases h
  | fpByte b =>
    simp only [Claims.tableFpState] at h
    split at h
    · cases h
    · exact .inl h
  | fpAbort cause =>
    simp only [Claims.tableFpState] at h
    split at h
    · split at h
      case h_1 hpolicy => exact .inr hpolicy
      case h_2 => cases h
    · exact .inl h
  | _ => exact .inl h

/-- By the table, the fifth byte of a frame with flag 2 alone leads to `ENDED` (R34, R103). -/
theorem ended_of_tableFpState {s : State} {i : Instr}
    (h : Claims.tableFpState s i = .ended) (hs : s.fpState ≠ .ended) :
    (∃ b, i = .fpByte b) ∧ s.fpState = .run ∧ s.cnt = 4 ∧ highNibble s.buf[1] = 2#4 := by
  cases i with
  | fpStart | fpStop => cases h
  | fpByte b =>
    simp only [Claims.tableFpState] at h
    split at h
    case isTrue hframe => exact ⟨⟨b, rfl⟩, hframe⟩
    case isFalse => exact absurd h hs
  | fpAbort cause =>
    simp only [Claims.tableFpState] at h
    split at h
    · split at h <;> cases h
    · exact absurd h hs
  | _ => exact absurd h hs

/-- The reset step establishes the invariant whatever it finds (R160). -/
theorem resetStep_inv (s : State) : Inv (resetStep s) :=
  ⟨fun h => absurd rfl h, fun h => by simp [resetStep] at h, wellFormed_of_tx []⟩

theorem Effect.inv {i : Instr} {s t : State} (h : Effect s i t) (hi : i.isFrame = false)
    (hcnt : CntOnlyInRun s) (hfailed : FailedOnlyUnderTerminate s) : Inv t := by
  obtain ⟨htfp, htcnt⟩ := h.tables hi
  obtain ⟨hparams, -, -⟩ := h.environment_eq
  refine ⟨fun hne => ?cnt, fun hf => ?failed, h.wellFormed hi⟩
  case cnt =>
    rw [htfp]
    exact tableFpState_of_tableCnt_ne_zero hcnt (htcnt ▸ fun h0 => hne (Fin.ext h0))
  case failed =>
    rw [hparams]
    exact (failed_of_tableFpState (htfp ▸ hf)).elim hfailed id

/-- Settles O6: the reset step establishes the invariant, and an operation of format C follows the
transition table and answers a well-formed record. -/
theorem invariantKeptByEveryStep : Obligations.InvariantKeptByEveryStep := by
  rintro s ⟨hcnt, hfailed, -⟩
  rcases step_cases s with ⟨-, hstep⟩ | ⟨-, t, hstep, heffect⟩
  · exact ⟨_, hstep, resetStep_inv _⟩
  · exact ⟨t, hstep, heffect.inv (decodeCmd_isFrame _) hcnt hfailed⟩

/-- Settles O7. -/
theorem resetStateMeetsInvariant : Obligations.ResetStateMeetsInvariant :=
  ⟨fun h => absurd rfl h, fun _ => rfl, wellFormed_of_tx []⟩

/-- Settles O38: the reset step ends in `IDLE`, and an operation follows the transition table. -/
theorem endedIsReachedOnlyByAnEndFrame : Obligations.EndedIsReachedOnlyByAnEndFrame := by
  intro s t hstep hended hs
  rcases step_cases s with ⟨-, hreset⟩ | ⟨hrst, u, hu, heffect⟩
  · cases hstep.symm.trans hreset
    cases hended
  · cases hstep.symm.trans hu
    obtain ⟨hfp, -⟩ := heffect.tables (decodeCmd_isFrame _)
    obtain ⟨hbyte, hrun, hcnt, hflag⟩ := ended_of_tableFpState (hfp.symm.trans hended) hs
    exact ⟨hrun, hcnt, hrst, hbyte, hflag⟩

end Sys2Proof.Machine
end

