-- ==== Sys2Proof/Proofs/Independence.lean ====
section
/-! Two things no operation can tell apart: what stale bytes `buf` holds (R28), and, for unit FFP,
what the register of CRCG holds (R57). -/

namespace Sys2Proof.Machine

/-- A frame row completes its frame in the same way in every state (log 6). -/
theorem exec_frame_eq_completeFrame {i : Instr} {f : Frame} (h : i.frame? = some f) :
    ∃ present after, ∀ s, exec i s = .next (completeFrame f present after s) := by
  cases i <;> cases h <;> exact ⟨_, _, fun _ => rfl⟩

/-! ### Stale bytes -/

/-- `b` holds the partial frame of `s`. -/
def HoldsPartial (s : State) (b : Vector Byte 5) : Prop := ∀ i : Fin 5, i < s.cnt → s.buf[i] = b[i]

theorem agreeButStale_iff {s s' : State} :
    AgreeButStale s s' ↔ ∃ b, s' = { s with buf := b } ∧ HoldsPartial s b := by
  constructor
  · rintro ⟨hcrc, hcnt, hfp, hout, hparams, hpending, htick, hbuf⟩
    exact ⟨s'.buf, State.eq_of_fields hcrc.symm rfl hcnt.symm hfp.symm hout.symm hparams.symm
      hpending.symm htick.symm, hbuf⟩
  · rintro ⟨b, rfl, hbuf⟩
    exact ⟨rfl, rfl, rfl, rfl, rfl, rfl, rfl, hbuf⟩

/-- Both outcomes are next states, which differ in stale bytes at most. -/
def AnswerAlike (o o' : Host.Outcome State Fault Refusal) : Prop :=
  ∃ t t', o = .next t ∧ o' = .next t' ∧ AgreeButStale t t'

theorem AgreeButStale.refl (s : State) : AgreeButStale s s :=
  ⟨rfl, rfl, rfl, rfl, rfl, rfl, rfl, fun _ _ => rfl⟩

theorem HoldsPartial.agree {s : State} {b : Vector Byte 5} (h : HoldsPartial s b) :
    AgreeButStale s { s with buf := b } :=
  agreeButStale_iff.mpr ⟨b, rfl, h⟩

/-- With no byte collected every byte is stale. -/
theorem holdsPartial_of_cnt_zero {s : State} (h : s.cnt = 0) (b : Vector Byte 5) :
    HoldsPartial s b := by
  intro i hi
  rw [h] at hi
  exact absurd hi (Fin.not_lt_zero i)

section
variable {s : State} {b : Vector Byte 5}

/-- Storing a byte at `cnt` makes it the last of the partial frame. -/
theorem HoldsPartial.stored (h : HoldsPartial s b) (byte : Byte) (hcnt : s.cnt.val < 4) :
    HoldsPartial (storeByte byte s) (b.set s.cnt.val byte s.cnt.isLt) := by
  intro i hi
  have hnext : (s.cnt + 1).val = s.cnt.val + 1 := Fin.val_add_one_of_lt' (by omega)
  have hle : i.val ≤ s.cnt.val := by
    have hlt : i.val < (s.cnt + 1).val := hi
    omega
  by_cases hi' : i = s.cnt
  · subst hi'
    simp
  · have hne : s.cnt.val ≠ i.val := fun heq => hi' (Fin.ext heq.symm)
    have hold : s.buf[i] = b[i] := h i (Fin.lt_def.mpr (by omega))
    simpa [hne] using hold

/-- The four bytes the fifth completes are no stale bytes (R103). -/
theorem HoldsPartial.frameOfBytes_eq (h : HoldsPartial s b) (hcnt : s.cnt = 4) (byte : Byte) :
    frameOfBytes s.buf[0] s.buf[1] s.buf[2] s.buf[3] byte =
      frameOfBytes b[0] b[1] b[2] b[3] byte := by
  have hlive : ∀ i : Fin 5, i < 4 → s.buf[i] = b[i] := fun i hi => h i (hcnt ▸ hi)
  have h0 : s.buf[0] = b[0] := hlive 0 (by decide)
  have h1 : s.buf[1] = b[1] := hlive 1 (by decide)
  have h2 : s.buf[2] = b[2] := hlive 2 (by decide)
  have h3 : s.buf[3] = b[3] := hlive 3 (by decide)
  rw [h0, h1, h2, h3]

/-- In `RUN` a completed frame overwrites the whole buffer; outside it nothing is written. -/
theorem HoldsPartial.agree_completeFrame (h : HoldsPartial s b) (f : Frame)
    (present : Output → Output) (after : FpState) :
    AgreeButStale (completeFrame f present after s)
      (completeFrame f present after { s with buf := b }) := by
  by_cases hrun : s.fpState = .run
  · rw [completeFrame_of_run _ _ _ hrun, completeFrame_of_run _ _ _ (s := { s with buf := b }) hrun]
    exact AgreeButStale.refl _
  · rw [completeFrame_outside _ _ _ hrun,
      completeFrame_outside _ _ _ (s := { s with buf := b }) hrun]
    exact HoldsPartial.agree (s := report .dropped s) h

theorem HoldsPartial.agree_exec_frame (h : HoldsPartial s b) {i : Instr} {f : Frame}
    (hf : i.frame? = some f) :
    AnswerAlike (exec i s) (exec i { s with buf := b }) := by
  obtain ⟨present, after, hexec⟩ := exec_frame_eq_completeFrame hf
  exact ⟨_, _, hexec s, hexec _, h.agree_completeFrame f present after⟩

theorem HoldsPartial.agree_exec_fpByte (h : HoldsPartial s b) (byte : Byte) :
    AnswerAlike (exec (.fpByte byte) s) (exec (.fpByte byte) { s with buf := b }) := by
  by_cases hrun : s.fpState = .run
  · by_cases hcnt : s.cnt.val < 4
    · exact ⟨_, _, exec_fpByte_of_collecting byte hrun hcnt,
        exec_fpByte_of_collecting byte (s := { s with buf := b }) hrun hcnt,
        HoldsPartial.agree (s := respond Output.quiet (storeByte byte s))
          (h.stored byte hcnt)⟩
    · have hfifth : s.cnt = 4 := Fin.ext (by change s.cnt.val = 4; omega)
      rw [exec_fpByte_of_fifth byte hrun hfifth,
        exec_fpByte_of_fifth byte (s := { s with buf := b }) hrun hfifth,
        h.frameOfBytes_eq hfifth byte]
      exact h.agree_exec_frame (decodeFrame_frame? _)
  · exact ⟨_, _, exec_fpByte_outside byte hrun,
      exec_fpByte_outside byte (s := { s with buf := b }) hrun,
      HoldsPartial.agree (s := report .dropped s) h⟩

theorem HoldsPartial.agree_exec_fpAbort (h : HoldsPartial s b) (cause : ErrCause) :
    AnswerAlike (exec (.fpAbort cause) s) (exec (.fpAbort cause) { s with buf := b }) := by
  by_cases hrun : s.fpState = .run
  · exact ⟨_, _, exec_fpAbort_of_run cause hrun,
      exec_fpAbort_of_run cause (s := { s with buf := b }) hrun,
      HoldsPartial.agree (holdsPartial_of_cnt_zero rfl b)⟩
  · exact ⟨_, _, exec_fpAbort_outside cause hrun,
      exec_fpAbort_outside cause (s := { s with buf := b }) hrun,
      HoldsPartial.agree (s := respond Output.quiet s) h⟩

/-- No operation shows a stale byte or makes one live. -/
theorem HoldsPartial.agree_exec (h : HoldsPartial s b) (i : Instr) :
    AnswerAlike (exec i s) (exec i { s with buf := b }) := by
  cases hf : i.frame? with
  | some f => exact h.agree_exec_frame hf
  | none =>
    cases i with
    | fpStart | fpStop =>
      exact ⟨_, _, rfl, rfl, HoldsPartial.agree (holdsPartial_of_cnt_zero rfl b)⟩
    | fpByte byte => exact h.agree_exec_fpByte byte
    | fpAbort cause => exact h.agree_exec_fpAbort cause
    | idle | reserved5 | reserved67 | reservedCF | crcClr | crcBit | crcByte | crcRd =>
      exact ⟨_, _, rfl, rfl, HoldsPartial.agree h⟩
    | _ => cases hf

end

/-- Settles O56: both states read the same input, and the reset step writes all of `buf` anew. -/
theorem staleBytesNeverReachAnOutput : Obligations.StaleBytesNeverReachAnOutput := by
  intro s s' hagree
  obtain ⟨b, rfl, hpartial⟩ := agreeButStale_iff.mp hagree
  have hinput : nextInput { s with buf := b } = nextInput s := rfl
  have htake : takeInput { s with buf := b } = { takeInput s with buf := b } := rfl
  unfold step
  rw [hinput, htake]
  split
  · exact ⟨_, _, rfl, rfl, AgreeButStale.refl _⟩
  · exact HoldsPartial.agree_exec (s := takeInput s) hpartial _

/-! ### The two units -/

/-- What a CRCG operation does to the register and shows on the record is a function of the register
alone (R88 to R91). -/
theorem exec_crcg {i : Instr} (h : i.isCrcg = true) :
    ∃ (record : CrcWord → Output) (write : CrcWord → CrcWord),
      ∀ s, exec i s = .next (respond (record s.crc) (writeCrc (write s.crc) s)) := by
  cases i with
  | crcClr => exact ⟨fun _ => Output.quiet, fun _ => Config.crcInit, exec_crcClr⟩
  | crcBit d => exact ⟨fun _ => Output.quiet, fun c => crcBit c d, exec_crcBit d⟩
  | crcByte b => exact ⟨fun _ => Output.quiet, fun c => crcByte c b, exec_crcByte b⟩
  | crcRd => exact ⟨fun c => { Output.quiet with tx := Claims.crcPair c }, id, exec_crcRd⟩
  | _ => cases h

theorem completeFrame_writeCrc (f : Frame) (present : Output → Output) (after : FpState)
    (c : CrcWord) (s : State) :
    completeFrame f present after (writeCrc c s) =
      writeCrc c (completeFrame f present after s) := by
  unfold completeFrame
  rw [writeCrc_fpState]
  split <;> rfl

/-- An FFP operation neither reads nor writes the register (R57). -/
theorem exec_writeCrc {j : Instr} (hj : j.isFfp = true) (c : CrcWord) {s t : State}
    (h : exec j s = .next t) : exec j (writeCrc c s) = .next (writeCrc c t) := by
  cases hf : j.frame? with
  | some f =>
    obtain ⟨present, after, hexec⟩ := exec_frame_eq_completeFrame hf
    rw [hexec] at h ⊢
    cases h
    rw [completeFrame_writeCrc]
  | none =>
    cases effect_of_exec h with
    | started | stopped => rfl
    | dropped hrun => exact exec_fpByte_outside _ (s := writeCrc c s) hrun
    | stored hrun hcnt => exact exec_fpByte_of_collecting _ (s := writeCrc c s) hrun hcnt
    | completed hrun hcnt hbytes =>
      exact exec_fpByte_eq_completed _ (s := writeCrc c s) hrun hcnt
        ((frameOfWord_collectedWord s _).trans hbytes.symm)
    | aborted hrun => exact exec_fpAbort_of_run _ (s := writeCrc c s) hrun
    | ignored hrun => exact exec_fpAbort_outside _ (s := writeCrc c s) hrun
    | common _ hffp => simp [hffp] at hj
    | crcg hcrcg => simp [Instr.not_isFfp_of_isCrcg hcrcg] at hj
    | frame hframe => simp [hframe] at hf

/-- Settles O55: the CRCG operation reads and writes the register alone, which the FFP operation
passes on untouched. -/
theorem unitsCommute : Obligations.UnitsCommute := by
  intro i j s hi hj
  obtain ⟨record, write, hexec⟩ := exec_crcg hi
  obtain ⟨t', hjs, heffect⟩ := exec_effect j s
  have hcrc : t'.crc = s.crc := heffect.crc_eq (Instr.not_isCrcg_of_isFfp hj)
  have hjt : exec j (respond (record s.crc) (writeCrc (write s.crc) s)) =
      .next (writeCrc (write s.crc) t') := by
    rw [exec_respond, exec_writeCrc hj _ hjs]
  have hit : exec i t' = .next (respond (record s.crc) (writeCrc (write s.crc) t')) := by
    rw [hexec, hcrc]
  exact ⟨_, _, t', _, hexec s, hjt, hjs, hit, rfl, rfl, rfl⟩

end Sys2Proof.Machine
end

