-- ==== Sys2Proof/Proofs/Steps.lean ====
section
/-! The step as a whole: reset before the command word (R82, R160, R161), the command word on the
state with its input used up, and words placed where the step looks (log 1, log 7). -/

namespace Sys2Proof.Machine

theorem takeInput_of_pending {s : State} {i : Input} {rest : List Input}
    (h : s.pending = i :: rest) :
    takeInput s = { s with pending := rest, tick := s.tick + 1 } := by
  simp [takeInput, h]

theorem step_of_reset {s : State} {w : CmdWord} {rest : List Input}
    (h : s.pending = { rst := true, cmd := w } :: rest) :
    step s = .next (resetStep { s with pending := rest, tick := s.tick + 1 }) := by
  simp [step, nextInput_of_pending h, takeInput_of_pending h]

theorem step_of_command {s : State} {w : CmdWord} {rest : List Input}
    (h : s.pending = { rst := false, cmd := w } :: rest) :
    step s = exec (decodeCmd w) { s with pending := rest, tick := s.tick + 1 } := by
  simp [step, nextInput_of_pending h, takeInput_of_pending h]

theorem step_of_none {s : State} (h : s.pending = []) :
    step s =
      step { s with
        pending := [{ rst := Config.envRst s.tick, cmd := Config.envCmd s.tick }] } := by
  have htake : takeInput s = { s with pending := [], tick := s.tick + 1 } := by
    simp [takeInput, h]
  simp only [step, nextInput_of_none h, htake]
  rfl

theorem step_placeCmd (w : CmdWord) (s : State) :
    step (placeCmd w s) = exec (decodeCmd w) { s with tick := s.tick + 1 } := rfl

/-- Settles O1. -/
theorem resetStateHoldsResetValues : Obligations.ResetStateHoldsResetValues :=
  ⟨rfl, rfl, rfl, rfl, rfl, rfl, rfl, rfl⟩

/-- Settles O2: with either word the step is the reset step of the same state. -/
theorem resetInputInstallsResetValues : Obligations.ResetInputInstallsResetValues := by
  intro s w rest h
  refine ⟨⟨_, step_of_reset h, rfl, rfl, rfl, rfl, rfl, rfl, rfl⟩, fun w' => ?_⟩
  rw [step_of_reset h, step_of_reset (s := { s with pending := _ :: rest }) rfl]

/-- Settles O3. -/
theorem stepRunsDecodedCommand : Obligations.StepRunsDecodedCommand :=
  ⟨fun _ _ _ h => step_of_command h, fun _ h => step_of_none h⟩

/-- `byte[1]` of a frame word is `F[31:24]` (R63). -/
theorem frameOfWord_byte1 (F : FrameWord) : (frameOfWord F).byte1 = F.extractLsb' 24 8 := by
  apply BitVec.eq_of_getLsbD_eq
  intro k hk
  simp only [Frame.byte1, frameOfWord, getLsbD_nibbles, BitVec.getLsbD_extractLsb']
  interval_cases k <;> simp

/-- A placed frame runs in the step of its fifth byte (log 7). -/
theorem step_placeFrame (f : Frame) (s : State) :
    step (placeFrame f s) =
      exec (decodeFrame f)
        { s with
          fpState := .run
          cnt := 4
          buf := #v[f.marker, f.byte1, f.b2, f.b3, s.buf[4]]
          tick := s.tick + 1 } := by
  rw [placeFrame, step_placeCmd, decodeCmd_fpByte, exec_fpByte_of_fifth _ rfl rfl]
  simp

/-- Settles O4. -/
theorem placedTableWordRuns : Obligations.PlacedTableWordRuns := by
  refine ⟨fun s w => ?command, fun s F => ?frame⟩
  case command =>
    have hplace : s.withFetchWord 16 w.toNat = placeCmd w s := by
      simp [State.withFetchWord, placeTableWord]
    rw [hplace, step_placeCmd]
  case frame =>
    have hplace : s.withFetchWord 40 F.toNat = placeFrame (frameOfWord F) s := by
      simp [State.withFetchWord, placeTableWord]
    rw [hplace, step_placeFrame, frameOfWord_byte1]
    rfl

end Sys2Proof.Machine
end

