-- ==== Sys2Proof/Proofs/FrameKinds.lean ====
section
/-! The frame kinds one by one (R118 to R126): how each row is spelled, what it decodes to, and the
state the step that completes it leaves. What holds of every frame (R103, R128, R130) stands
first. -/

namespace Sys2Proof.Machine

/-! ### A frame row in `RUN`, and outside it -/

theorem exec_decodeFrame_of_run (f : Frame) {s : State} (hrun : s.fpState = .run) :
    exec (decodeFrame f) s =
      .next (respond ((frameDecode f).view (frameRecord s.params f))
        (setParser (frameDecode f).after (storeFrame f s))) := by
  rw [exec_decodeFrame, completeFrame_of_run _ _ _ hrun]

theorem exec_frame_outside {i : Instr} (hi : i.isFrame = true) {s : State} (hs : s.fpState ≠ .run) :
    exec i s = .next (report .dropped s) := by
  obtain ⟨f, hf⟩ := Instr.exists_frame? hi
  obtain ⟨present, after, hexec⟩ := exec_frame_eq_completeFrame hf
  rw [hexec, completeFrame_outside _ _ _ hs]

/-- Settles O41. -/
theorem framesOutsideRunAreDropped : Obligations.FramesOutsideRunAreDropped :=
  fun _ _ hi hs => exec_frame_outside hi hs

/-! ### Five bytes are one frame -/

theorem frameInstr_bytes (b0 b1 b2 b3 b4 : Byte) :
    Claims.frameInstr (b0 ++ b1 ++ b2 ++ b3 ++ b4) =
      decodeFrame (frameOfBytes b0 b1 b2 b3 b4) := by
  rw [Claims.frameInstr, ← frameOfBytes_word, frameOfWord_word]

/-- Bytes outside `RUN` are dropped one by one, and only the last record stays (R143). -/
theorem execAll_fpBytes_outside (bs : List Byte) (b : Byte) {s : State} (hs : s.fpState ≠ .run) :
    execAll ((b :: bs).map .fpByte) s = .next (report .dropped s) := by
  induction bs generalizing b s with
  | nil => exact execAll_cons_of_next (exec_fpByte_outside b hs) []
  | cons b' bs ih =>
    exact (execAll_cons_of_next (exec_fpByte_outside b hs) _).trans
      (ih b' (s := report .dropped s) hs)

/-- In `RUN` a frame row leaves nothing of what was collected (log 6). -/
theorem exec_decodeFrame_fourCollected (f : Frame) (b0 b1 b2 b3 : Byte) {s : State}
    (hrun : s.fpState = .run) :
    exec (decodeFrame f) (fourCollected b0 b1 b2 b3 s) = exec (decodeFrame f) s := by
  rw [exec_decodeFrame_of_run f hrun,
    exec_decodeFrame_of_run f (s := fourCollected b0 b1 b2 b3 s) hrun]
  rfl

/-- Settles O40: in `RUN` four bytes are collected and the fifth runs the row; outside it the row
and each of its bytes are dropped. -/
theorem fiveFpBytesAreOneFrame : Obligations.FiveFpBytesAreOneFrame := by
  intro s b0 b1 b2 b3 b4 hboundary
  rw [frameInstr_bytes]
  by_cases hrun : s.fpState = .run
  · obtain ⟨t, ht, -⟩ := exec_effect (decodeFrame (frameOfBytes b0 b1 b2 b3 b4)) s
    have hfifth : exec (.fpByte b4) (fourCollected b0 b1 b2 b3 s) = .next t := by
      rw [exec_fpByte_of_fifth b4 (s := fourCollected b0 b1 b2 b3 s) hrun rfl]
      exact (exec_decodeFrame_fourCollected _ b0 b1 b2 b3 hrun).trans ht
    calc execAll (fpFrame b0 b1 b2 b3 b4) s
        = execAll [.fpByte b4] (fourCollected b0 b1 b2 b3 s) :=
          execAll_fourBytes b0 b1 b2 b3 _ hrun (hboundary hrun)
      _ = .next t := execAll_cons_of_next hfifth []
      _ = exec (decodeFrame (frameOfBytes b0 b1 b2 b3 b4)) s := ht.symm
  · rw [exec_frame_outside (decodeFrame_isFrame _) hrun]
    exact execAll_fpBytes_outside [b1, b2, b3, b4] b0 hrun

/-! ### The bits a kind uses -/

/-- Settles O14: each row's result, under the conditions that select the row, is a function of the
bits named. -/
theorem decodeReadsOnlyTheUsedBits : Obligations.DecodeReadsOnlyTheUsedBits := by
  intro f g hflag hkey htempo hparam
  have hflag' : ∀ {k : Nibble}, f.flag = k → g.flag = k := fun h => hflag ▸ h
  have htempo' : f.flag = 1#4 → f.tempo = g.tempo := fun h => by
    obtain ⟨h2, h3, h4⟩ := htempo h
    rw [Frame.tempo, Frame.tempo, h2, h3, h4]
  rcases frameRow_cases f with ⟨h, -⟩ | ⟨h, ht, -⟩ | ⟨h, ht, -⟩ | ⟨h, -⟩ | ⟨h, -⟩ |
    ⟨h, hb, -⟩ | ⟨h, hb, -⟩ | ⟨h, -⟩ | ⟨h, -⟩ | ⟨h, -⟩
  · obtain ⟨hchan, h3, h4⟩ := hkey h
    rw [frameDecode_of_flag0 h, frameDecode_of_flag0 (hflag' h), hchan, h3, h4]
  · rw [frameDecode_of_flag1_zero h ht, frameDecode_of_flag1_zero (hflag' h) (htempo' h ▸ ht)]
  · rw [frameDecode_of_flag1_nonzero h ht,
      frameDecode_of_flag1_nonzero (hflag' h) (htempo' h ▸ ht), htempo' h]
  · rw [frameDecode_of_flag2 h, frameDecode_of_flag2 (hflag' h)]
  · rw [frameDecode_of_flag3 h, frameDecode_of_flag3 (hflag' h)]
  · rcases hparam h with ⟨hbad, -⟩ | ⟨h2, h3⟩
    · exact absurd (hb.symm.trans hbad) (by decide)
    · rw [frameDecode_of_flag4_legal h hb, frameDecode_of_flag4_legal (hflag' h) (h2 ▸ hb), h2, h3]
  · have hbad : g.b2.getLsbD 7 = true := (hparam h).elim And.right fun ⟨h2, _⟩ => h2 ▸ hb
    rw [frameDecode_of_flag4_bad h hb, frameDecode_of_flag4_bad (hflag' h) hbad]
  · rw [frameDecode_of_flag5 h, frameDecode_of_flag5 (hflag' h)]
  · rw [frameDecode_of_flag67 h, frameDecode_of_flag67 (h.imp hflag' hflag'), hflag]
  · rw [frameDecode_of_flag8F h, frameDecode_of_flag8F (hflag ▸ h), hflag]

/-! ### The marker -/

theorem markerOk_of_none {p : Params} (h : p.markerExpect = none) (marker : Byte) :
    markerOk p marker = true := by
  simp [markerOk, h]

theorem markerOk_of_some {p : Params} {x : Byte} (h : p.markerExpect = some x) (marker : Byte) :
    markerOk p marker = decide (marker = x) := by
  simp [markerOk, h, beq_eq_decide]

theorem frameDecode_marker (f : Frame) (m : Byte) :
    frameDecode { f with marker := m } = frameDecode f := rfl

theorem view_markerOk (r : DecodeResult) (o : Output) : (r.view o).markerOk = o.markerOk := by
  cases r with
  | event e => cases e <;> rfl
  | rejectTempoZero => rfl

/-- Of the record the marker reaches its own copy and `marker_ok` (R128). -/
theorem view_marker (r : DecodeResult) (p : Params) (f : Frame) (m : Byte) :
    { r.view (frameRecord p f) with fMarker := none, markerOk := none } =
      { r.view (frameRecord p { f with marker := m }) with fMarker := none, markerOk := none } := by
  cases r with
  | event e => cases e <;> rfl
  | rejectTempoZero => rfl

/-- Settles O53: both frames have one result, so the marker is left in the raw fields and the
buffer. -/
theorem markerChangesOnlyMarkerOk : Obligations.MarkerChangesOnlyMarkerOk := by
  intro s f m hrun
  refine ⟨_, _, exec_decodeFrame_of_run f hrun, exec_decodeFrame_of_run { f with marker := m } hrun,
    fun hnone => ?none, fun x hsome => ?some, ?record, ?state⟩
  case none => rw [respond_out, view_markerOk]; exact congrArg some (markerOk_of_none hnone _)
  case some => rw [respond_out, view_markerOk]; exact congrArg some (markerOk_of_some hsome _)
  case record => rw [respond_out, respond_out, frameDecode_marker]; exact view_marker _ _ f m
  case state => rfl

/-! ### The kinds -/

theorem frameRecord_eq_rawRecord (p : Params) (f : Frame) :
    frameRecord p f = Claims.rawRecord p f.marker f.flag f.chan f.b2 f.b3 f.b4 := by
  cases h : p.markerExpect <;>
    simp [frameRecord, Claims.rawRecord, markerOk, h, Output.quiet, beq_eq_decide]

/-- What the statement about a frame kind says, once its row and its result are known: the word
spells the row and decodes to the result, and in `RUN` the row completes the frame. -/
theorem frameKind {i : Instr} {f : Frame} {r : DecodeResult} (hrow : decodeFrame f = i)
    (hr : frameDecode f = r) :
    Claims.frameInstr f.word = i ∧ Claims.decodeWord f.word = r ∧
      ∀ s : State, s.fpState = .run →
        exec i s = .next (Claims.completed s f.marker f.byte1 f.b2 f.b3 f.b4 r.after
          (r.view (Claims.rawRecord s.params f.marker f.flag f.chan f.b2 f.b3 f.b4))) := by
  refine ⟨?row, ?result, fun s hrun => ?exec⟩
  case row => rw [Claims.frameInstr, frameOfWord_word, hrow]
  case result => rw [Claims.decodeWord, frameOfWord_word, hr]
  case exec =>
    rw [← hrow, exec_decodeFrame_of_run f hrun, hr, frameRecord_eq_rawRecord]
    rfl

theorem noteOn_eq (velocity : Byte) : noteOn velocity = decide (velocity ≠ 0#8) := by
  simp [noteOn, bne, beq_eq_decide]

/-- Settles O42. -/
theorem keyFrameForwardsAKeyEvent : Obligations.KeyFrameForwardsAKeyEvent := by
  intro marker chan b2 key velocity
  rw [← noteOn_eq]
  exact frameKind (f := ⟨marker, 0#4, chan, b2, key, velocity⟩) (decodeFrame_of_frame? rfl rfl)
    (frameDecode_of_flag0 rfl)

/-- A frame of flag 1 with a value is the row that carries the value (R119). -/
theorem decodeFrame_of_tempo {f : Frame} (hflag : f.flag = 1#4) (ht : f.tempo ≠ 0#24) :
    decodeFrame f = .fTempo f.marker f.chan f.tempo := by
  rw [decodeFrame, frameRow_of_flag1_nonzero hflag ht]

/-- Settles O43. -/
theorem tempoFrameForwardsItsValue : Obligations.TempoFrameForwardsItsValue := by
  rintro marker chan b2 b3 b4 tempo rfl hnonzero
  exact frameKind (f := ⟨marker, 1#4, chan, b2, b3, b4⟩) (decodeFrame_of_tempo rfl hnonzero)
    (frameDecode_of_flag1_nonzero rfl hnonzero)

/-- Settles O44. -/
theorem zeroTempoFrameIsRejected : Obligations.ZeroTempoFrameIsRejected := by
  intro marker chan
  exact frameKind (f := ⟨marker, 1#4, chan, 0#8, 0#8, 0#8⟩) (decodeFrame_of_frame? rfl rfl)
    (frameDecode_of_flag1_zero rfl (by simp [Frame.tempo]))

/-- Operations without `FP_START` leave a parser that is not in `RUN` outside it (R105). -/
theorem execAll_stays_outside {is : List Instr} (his : Instr.fpStart ∉ is) {s : State}
    (hs : s.fpState ≠ .run) : ∃ t, execAll is s = .next t ∧ t.fpState ≠ .run := by
  induction is generalizing s with
  | nil => exact ⟨s, rfl, hs⟩
  | cons i is ih =>
    rw [List.mem_cons, not_or] at his
    obtain ⟨hi, his⟩ := his
    obtain ⟨u, hexec, heffect⟩ := exec_effect i s
    obtain ⟨t, ht, houtside⟩ := ih his (heffect.stays_outside hs (Ne.symm hi))
    exact ⟨t, (execAll_cons_of_next hexec is).trans ht, houtside⟩

/-- Settles O45: the End frame leaves `RUN`, and no operation but `FP_START` opens it again. -/
theorem endFrameEndsTheSession : Obligations.EndFrameEndsTheSession := by
  intro marker chan b2 b3 b4
  obtain ⟨hrow, hresult, hexec⟩ := frameKind (f := ⟨marker, 2#4, chan, b2, b3, b4⟩)
    (decodeFrame_of_frame? (i := .fEnd marker chan b2 b3 b4) rfl rfl) (frameDecode_of_flag2 rfl)
  refine ⟨hrow, hresult, hexec, fun s later b hrun hlater => ?_⟩
  obtain ⟨t, ht, houtside⟩ := execAll_stays_outside hlater
    (s := Claims.completed s _ _ _ _ _ .ended _) (by simp [Claims.completed])
  exact ⟨t, _, (execAll_cons_of_next (hexec s hrun) later).trans ht, exec_fpByte_outside b houtside,
    rfl⟩

/-- Settles O46. -/
theorem nopFrameIsShownNotForwarded : Obligations.NopFrameIsShownNotForwarded := by
  intro marker chan b2 b3 b4
  exact frameKind (f := ⟨marker, 3#4, chan, b2, b3, b4⟩) (decodeFrame_of_frame? rfl rfl)
    (frameDecode_of_flag3 rfl)

/-- Settles O47: the byte of a legal sub-id comes apart into its operands. -/
theorem paramFrameForwardsAParamEvent : Obligations.ParamFrameForwardsAParamEvent := by
  intro marker chan paramId slot value b4
  have hresult : frameDecode ⟨marker, 4#4, chan, 0#1 ++ paramId ++ slot, value, b4⟩ =
      .event (.param slot (paramIdField paramId) value) := by
    rw [frameDecode_of_flag4_legal rfl ?top]
    case top => exact param_byte_top paramId slot
    simp only [param_byte_id, param_byte_slot]
  exact frameKind (f := ⟨marker, 4#4, chan, 0#1 ++ paramId ++ slot, value, b4⟩)
    (decodeFrame_of_frame? rfl rfl) hresult

/-- Settles O48. -/
theorem paramFrameWithBadIdIsUnknown : Obligations.ParamFrameWithBadIdIsUnknown := by
  intro marker chan low b3 b4
  have hresult : frameDecode ⟨marker, 4#4, chan, 1#1 ++ low, b3, b4⟩ = .event (.unknown 4#4) := by
    rw [frameDecode_of_flag4_bad rfl ?top]
    case top => exact badId_byte_top low
  exact frameKind (f := ⟨marker, 4#4, chan, 1#1 ++ low, b3, b4⟩)
    (decodeFrame_of_frame? rfl rfl) hresult

/-- Settles O49. -/
theorem skipFrameForwardsASkipEvent : Obligations.SkipFrameForwardsASkipEvent := by
  intro marker chan b2 b3 b4
  exact frameKind (f := ⟨marker, 5#4, chan, b2, b3, b4⟩) (decodeFrame_of_frame? rfl rfl)
    (frameDecode_of_flag5 rfl)

/-- Settles O50: the flags of both rows are 6 or more. -/
theorem unknownFramesForwardTheirFlag : Obligations.UnknownFramesForwardTheirFlag := by
  intro marker chan b2 b3 b4
  have h67 : ∀ f : BitVec 1, 6 ≤ (flagOf67 f).toNat := by decide
  have h8F : ∀ f : BitVec 3, 6 ≤ (flagOf8F f).toNat := by decide
  refine ⟨fun f => ?unknown67, fun f => ?unknown8F⟩
  case unknown67 =>
    exact frameKind (f := ⟨marker, flagOf67 f, chan, b2, b3, b4⟩) (decodeFrame_of_frame? rfl rfl)
      (frameDecode_of_six_le (h67 f))
  case unknown8F =>
    exact frameKind (f := ⟨marker, flagOf8F f, chan, b2, b3, b4⟩) (decodeFrame_of_frame? rfl rfl)
      (frameDecode_of_six_le (h8F f))

end Sys2Proof.Machine
end

