-- ==== Sys2Proof/Proofs/CrcAlgebra.lean ====
section
/-! The algebra of the CRC (R86, R87, R95). A bit step is linear over exclusive or in the register
and the bit together, and it is a plain shift where the bit equals the register's top bit; the other
formulations and the laws of messages follow from these two facts. -/

namespace Sys2Proof.Machine

/-! ### The bit step -/

theorem crcPoly_getLsbD : ∀ i < 16,
    Config.crcPoly.getLsbD i = decide (i = 0 ∨ i = 5 ∨ i = 12) := by
  decide

/-- A bit step, bit by bit: the bit below, with the feedback at the taps. -/
theorem crcBit_getLsbD (c : CrcWord) (d : Bool) {i : Nat} (hi : i < 16) :
    (crcBit c d).getLsbD i =
      ((!decide (i < 1) && c.getLsbD (i - 1)) ^^
        ((c.getLsbD 15 ^^ d) && decide (i = 0 ∨ i = 5 ∨ i = 12))) := by
  unfold crcBit
  split
  case isTrue h =>
    rw [BitVec.getLsbD_xor, crcPoly_getLsbD i hi, h]
    simp [hi, -BitVec.getLsbD_eq_getElem]
  case isFalse h => simp [h, hi, -BitVec.getLsbD_eq_getElem]

/-- Settles O19. -/
theorem crcBitIsATappedShiftRegister : Obligations.CrcBitIsATappedShiftRegister := by
  intro c d
  refine ⟨?_, ?_, ?_, fun i h1 h15 h5 h12 => ?_⟩
  · rw [crcBit_getLsbD c d (by decide)]; simp
  · rw [crcBit_getLsbD c d (by decide)]; simp
  · rw [crcBit_getLsbD c d (by decide)]; simp
  · rw [crcBit_getLsbD c d (by omega)]
    have h0 : ¬ i < 1 := by omega
    have h0' : i ≠ 0 := by omega
    simp [h0, h0', h5, h12]

theorem crcBit_xor (a b : CrcWord) (d e : Bool) :
    crcBit (a ^^^ b) (d ^^ e) = crcBit a d ^^^ crcBit b e := by
  apply BitVec.eq_of_getLsbD_eq
  intro i hi
  simp only [BitVec.getLsbD_xor, crcBit_getLsbD _ _ hi, Bool.and_xor_distrib_left,
    Bool.and_xor_distrib_right, Bool.xor_assoc, Bool.xor_left_comm]

/-- Where the bit equals the top bit there is no feedback. -/
theorem crcBit_of_top {c : CrcWord} {d : Bool} (h : c.getLsbD 15 = d) : crcBit c d = c <<< 1 := by
  simp [crcBit, h, -BitVec.getLsbD_eq_getElem]

theorem crcShift_eq_crcBit (c : CrcWord) : crcShift c = crcBit c false := by
  simp [crcShift, crcBit]

/-- The two formulations of the bit step: the bit may enter as feedback (R86). -/
theorem crcBit_eq_crcShift_xor (c : CrcWord) (d : Bool) :
    crcBit c d = crcShift c ^^^ crcBit 0#16 d := by
  calc crcBit c d = crcBit (c ^^^ 0#16) (false ^^ d) := by simp
    _ = crcBit c false ^^^ crcBit 0#16 d := crcBit_xor c 0#16 false d
    _ = crcShift c ^^^ crcBit 0#16 d := by rw [crcShift_eq_crcBit]

/-! ### Bytes and messages -/

theorem crcByte_xor (a b : CrcWord) (x y : Byte) :
    crcByte (a ^^^ b) (x ^^^ y) = crcByte a x ^^^ crcByte b y := by
  simp only [crcByte, List.foldl_cons, List.foldl_nil, BitVec.getLsbD_xor, crcBit_xor]

theorem crcByte_zero : crcByte 0#16 0#8 = 0#16 := by decide

theorem crcFrom_append (c : CrcWord) (m n : List Byte) :
    crcFrom c (m ++ n) = crcFrom (crcFrom c m) n := List.foldl_append

theorem crcFrom_xor (a b : CrcWord) {m n : List Byte} (h : m.length = n.length) :
    crcFrom (a ^^^ b) (Claims.xorBytes m n) = crcFrom a m ^^^ crcFrom b n := by
  induction m generalizing n a b with
  | nil =>
    obtain rfl : n = [] := List.length_eq_zero_iff.mp h.symm
    rfl
  | cons x m ih =>
    cases n with
    | nil => cases h
    | cons y n =>
      have hstep := ih (crcByte a x) (crcByte b y) (Nat.succ.inj h)
      rw [← crcByte_xor] at hstep
      exact hstep

theorem crcFrom_zeros (k : Nat) : crcFrom 0#16 (List.replicate k 0#8) = 0#16 := by
  induction k with
  | zero => rfl
  | succ k ih =>
    rw [List.replicate_succ, crcFrom, List.foldl_cons, crcByte_zero]
    exact ih

/-- Settles O22. -/
theorem crcIsLinear : Obligations.CrcIsLinear :=
  ⟨crcBit_xor, fun _ _ h => crcFrom_xor Config.crcInit Config.crcInit h⟩

/-- Settles O23: zero bytes keep the register at 0, where the message then starts. -/
theorem leadingZeroBytesAreInvisible : Obligations.LeadingZeroBytesAreInvisible := by
  intro k m
  have hzeros : crcOf (List.replicate k 0#8) = Config.crcInit := crcFrom_zeros k
  refine ⟨?_, hzeros⟩
  calc crcOf (List.replicate k 0#8 ++ m)
      = crcFrom (crcOf (List.replicate k 0#8)) m := crcFrom_append _ _ _
    _ = crcOf m := by rw [hzeros]; rfl

/-! ### Self-check -/

/-- A byte equal to the register's high half is shifted out without feedback. -/
theorem crcByte_of_high {c : CrcWord} {b : Byte} (h : ∀ i < 8, b.getLsbD i = c.getLsbD (i + 8)) :
    crcByte c b = c <<< 8 := by
  have hbit : ∀ k < 8, crcBit (c <<< k) (b.getLsbD (7 - k)) = c <<< (k + 1) := by
    intro k hk
    rw [crcBit_of_top, ← BitVec.shiftLeft_add]
    rw [h (7 - k) (by omega), BitVec.getLsbD_shiftLeft]
    have h15 : 7 - k + 8 = 15 - k := by omega
    have hk15 : ¬ 15 < k := by omega
    simp [h15, hk15]
  have hbit0 := hbit 0 (by decide)
  rw [BitVec.shiftLeft_zero] at hbit0
  simp only [crcByte, List.foldl_cons, List.foldl_nil]
  rw [hbit0, hbit 1 (by decide), hbit 2 (by decide), hbit 3 (by decide), hbit 4 (by decide),
    hbit 5 (by decide), hbit 6 (by decide), hbit 7 (by decide)]

/-- Settles O24: each half of the register shifts itself out, and nothing is left. -/
theorem messageWithItsCrcHasCrcZero : Obligations.MessageWithItsCrcHasCrcZero := by
  intro m
  have hself : ∀ c : CrcWord, crcFrom c (Claims.crcPair c) = 0#16 := by
    intro c
    have hhigh : crcByte c (c.extractLsb' 8 8) = c <<< 8 :=
      crcByte_of_high fun i hi => by simp [hi, Nat.add_comm]
    have hlow : crcByte (c <<< 8) (c.extractLsb' 0 8) = c <<< 8 <<< 8 :=
      crcByte_of_high fun i hi => by
        have hi8 : i + 8 < 16 := by omega
        simp [hi, hi8, -BitVec.getLsbD_eq_getElem]
    calc crcFrom c (Claims.crcPair c)
        = crcByte (crcByte c (c.extractLsb' 8 8)) (c.extractLsb' 0 8) := rfl
      _ = c <<< 8 <<< 8 := by rw [hhigh, hlow]
      _ = 0#16 := by rw [← BitVec.shiftLeft_add, BitVec.shiftLeft_eq_zero (by decide)]
  exact (crcFrom_append _ _ _).trans (hself _)

/-! ### The exclusive-or form -/

/-- A word ahead of the register, exclusive-ored in, gives its top bit to the round and moves up. -/
theorem crcShift_xor_ahead (c h : CrcWord) :
    crcShift (c ^^^ h) = crcBit c (h.getLsbD 15) ^^^ h <<< 1 := by
  have htop : crcBit h (h.getLsbD 15) = h <<< 1 := crcBit_of_top rfl
  rw [crcShift_eq_crcBit, ← htop, ← crcBit_xor, Bool.xor_self]

theorem getLsbD_high_half (b : Byte) (k : Nat) :
    BitVec.getLsbD (w := 16) (b ++ 0#8) k = (!decide (k < 8) && b.getLsbD (k - 8)) := by
  have happend : BitVec.getLsbD (w := 16) (b ++ 0#8) k =
      if k < 8 then (0#8).getLsbD k else b.getLsbD (k - 8) := BitVec.getLsbD_append
  rw [happend]
  by_cases hk : k < 8 <;> simp [hk, -BitVec.getLsbD_eq_getElem]

/-- Settles O20: at each round the two registers differ by the bits of the byte still to come. -/
theorem crcByteEqualsItsXorForm : Obligations.CrcByteEqualsItsXorForm := by
  intro c b
  obtain ⟨ahead, hahead⟩ : ∃ ahead : CrcWord, ahead = b ++ 0#8 := ⟨_, rfl⟩
  have hround : ∀ k < 8, ∀ r : CrcWord, crcShift (r ^^^ ahead <<< k) =
      crcBit r (b.getLsbD (7 - k)) ^^^ ahead <<< (k + 1) := by
    intro k hk r
    have htop : (ahead <<< k).getLsbD 15 = b.getLsbD (7 - k) := by
      have hindex : 15 - k - 8 = 7 - k := by omega
      have hk15 : ¬ 15 < k := by omega
      have hk8 : ¬ 15 - k < 8 := by omega
      rw [hahead, BitVec.getLsbD_shiftLeft, getLsbD_high_half, hindex]
      simp [hk15, hk8]
    rw [crcShift_xor_ahead, htop, ← BitVec.shiftLeft_add]
  have hround0 := hround 0 (by decide) c
  rw [BitVec.shiftLeft_zero] at hround0
  have hend : ahead <<< 8 = 0#16 := by
    apply BitVec.eq_of_getLsbD_eq
    intro i hi
    have hlow : ¬ i < 8 → i - 8 < 8 := by omega
    rw [hahead, BitVec.getLsbD_shiftLeft, getLsbD_high_half]
    by_cases hi8 : i < 8 <;> simp [hi8, hlow]
  simp only [crcByteXor, List.foldl_cons, List.foldl_nil, ← hahead]
  rw [hround0, hround 1 (by decide), hround 2 (by decide), hround 3 (by decide),
    hround 4 (by decide), hround 5 (by decide), hround 6 (by decide), hround 7 (by decide), hend,
    BitVec.xor_zero]
  rfl

/-! ### The augmented form -/

/-- The message bit enters the augmented register by itself (R95). -/
theorem augmentedBit_eq (c : CrcWord) (d : Bool) :
    augmentedBit c d = crcShift c ^^^ BitVec.ofNat 16 d.toNat := by
  have henter : c <<< 1 ||| BitVec.ofNat 16 d.toNat = c <<< 1 ^^^ BitVec.ofNat 16 d.toNat := by
    cases d with
    | false => simp
    | true =>
      apply BitVec.eq_of_getLsbD_eq
      intro i hi
      by_cases h0 : i = 0
      · subst h0
        simp
      · have hbit : (1#16).getLsbD i = false := by simp [h0]
        simp [hbit, -BitVec.getLsbD_eq_getElem]
  rw [augmentedBit, crcShift, henter]
  split
  · rw [BitVec.xor_assoc, BitVec.xor_comm _ Config.crcPoly, ← BitVec.xor_assoc]
  · rfl

/-- Sixteen rounds carry a message bit from bit 0 to where the bit step puts its feedback. -/
theorem crcShift_iterate_bit (d : Bool) :
    crcShift^[16] (BitVec.ofNat 16 d.toNat) = crcBit 0#16 d := by
  cases d <;> decide +kernel

theorem crcShift_xor (a b : CrcWord) : crcShift (a ^^^ b) = crcShift a ^^^ crcShift b := by
  simp only [crcShift_eq_crcBit, ← crcBit_xor, Bool.xor_self]

theorem crcShift_iterate_xor (n : Nat) (a b : CrcWord) :
    crcShift^[n] (a ^^^ b) = crcShift^[n] a ^^^ crcShift^[n] b := by
  induction n generalizing a b with
  | zero => rfl
  | succ n ih => rw [Function.iterate_succ_apply, crcShift_xor, ih]; rfl

/-- The zero bits that follow a message are plain rounds. -/
theorem foldl_augmentedBit_zeros (n : Nat) (c : CrcWord) :
    (List.replicate n false).foldl augmentedBit c = crcShift^[n] c := by
  induction n generalizing c with
  | zero => rfl
  | succ n ih =>
    have hzero : augmentedBit c false = crcShift c := by simp [augmentedBit_eq]
    rw [List.replicate_succ, List.foldl_cons, hzero, ih]
    rfl

/-- Sixteen rounds turn the augmented register into the CRC register, before and after a bit. -/
theorem crcShift_iterate_augmentedBit (c : CrcWord) (d : Bool) :
    crcShift^[16] (augmentedBit c d) = crcBit (crcShift^[16] c) d := by
  rw [augmentedBit_eq, crcShift_iterate_xor, crcShift_iterate_bit, ← Function.iterate_succ_apply,
    Function.iterate_succ_apply', ← crcBit_eq_crcShift_xor]

theorem crcShift_iterate_foldl (ds : List Bool) (c : CrcWord) :
    crcShift^[16] (ds.foldl augmentedBit c) = ds.foldl crcBit (crcShift^[16] c) := by
  induction ds generalizing c with
  | nil => rfl
  | cons d ds ih => rw [List.foldl_cons, List.foldl_cons, ih, crcShift_iterate_augmentedBit]

/-- The CRC of a message is the fold of the bit step over its bits (R87). -/
theorem crcFrom_eq_foldl_bits (c : CrcWord) (m : List Byte) :
    crcFrom c m = (messageBits m).foldl crcBit c := by
  induction m generalizing c with
  | nil => rfl
  | cons b m ih =>
    rw [messageBits, List.flatMap_cons, List.foldl_append]
    exact ih (crcByte c b)

/-- Settles O25: the 16 zero bits are 16 rounds, which carry the augmented register to the CRC. -/
theorem augmentedFormAgrees : Obligations.AugmentedFormAgrees := by
  intro m
  have hzero : crcShift^[16] 0#16 = 0#16 := Function.iterate_fixed (by decide) 16
  rw [crcAugmented, List.foldl_append, foldl_augmentedBit_zeros, crcShift_iterate_foldl, hzero]
  exact (crcFrom_eq_foldl_bits 0#16 m).symm

end Sys2Proof.Machine
end
